-- ==== Sys2Proof/Config.lean ====
section
/-! DEFINITION. The parameters of 00_scope R8. "Each has one fixed value; none is left to an implementation": the widths
stand in the types (Word.lean, State.lean), the block size 64, the padding target 56 and the round count 64 as those
numerals where the rules write them, and the length limit of one FEED here. No constant is open, and the model has no
free value: no command of the spec leaves a result undefined. -/

namespace Sys2Proof

/-- The most payload bytes one FEED carries, `0x0FFFFFFF` (00_scope R8; 30_encoding R62). -/
abbrev Config.maxRun : Nat := 0x0FFFFFFF

end Sys2Proof
end

