-- ==== Sys2Proof/Word.lean ====
section
/-! DEFINITION. The data types of the engine: bytes, 32-bit words and the four accumulators (00_scope R9, R10). -/

namespace Sys2Proof

/-- A `u8` (00_scope R9). -/
abbrev Byte := BitVec 8

/-- A `u32`; `+` is addition modulo 2^32, and `&&&`, `|||`, `^^^`, `~~~`, `<<<`, `>>>` are the bitwise operators and
logical shifts of 00_scope R10. -/
abbrev Word := BitVec 32

/-- The four accumulators `ACC[0..3]`, "also named A, B, C and D in that order" (10_state R21). The working registers
`a, b, c, d` of one block transform have the same shape (10_state R31). -/
structure Acc where
  a : Word
  b : Word
  c : Word
  d : Word
  deriving DecidableEq, Repr

end Sys2Proof
end

