-- ==== Sys2Proof/Syntax.lean ====
section
/-! DEFINITION. The commands of the engine, one constructor per row of spec/opcode_table.json. -/

namespace Sys2Proof

/-- A command as 30_encoding R61 and R63 give it: FEED has its length field `LEN` and carries its payload `p`; the
other four take no operand (30_encoding R64). A header that is no command is no `Instr`: decoding names its fault. -/
inductive Instr where
  /-- INIT: start a new message (41_streaming_hasher R81). -/
  | init
  /-- FEED: append a byte run to the message (41_streaming_hasher R82). -/
  | feed (len : BitVec 28) (payload : List Byte)
  /-- FINAL: finalize if needed and return the digest (41_streaming_hasher R86). -/
  | final
  /-- HEX: finalize if needed and return the digest in hex (42_digest_formatter R102). -/
  | hex
  /-- STATUS: return the status word (41_streaming_hasher R90). -/
  | status
  deriving DecidableEq, Repr

end Sys2Proof
end

