-- ==== Sys2Proof/WellFormed.lean ====
section
/-! DEFINITION. Which command terms the command channel can carry. -/

namespace Sys2Proof

/-- "A FEED header is followed on the command channel by exactly `LEN` payload bytes" (30_encoding R63); the other
commands have nothing to check. -/
def Instr.wellFormed : Instr → Bool
  | .init => true
  | .feed len payload => payload.length == len.toNat
  | .final => true
  | .hex => true
  | .status => true

/-- `Instr.wellFormed` as a proposition. -/
abbrev Instr.WellFormed (i : Instr) : Prop := i.wellFormed = true

end Sys2Proof
end

