-- ==== Sys2Proof/Decode.lean ====
section
/-! DEFINITION. Reading commands off the command channel (30_encoding R60 to R68), total on any bytes, and writing
them (the encoder). The byte-order helpers of 00_scope R11 stand here too. -/

namespace Sys2Proof

/-- `le32(b0, b1, b2, b3)`: little-endian assembly (00_scope R11). -/
def le32 (b0 b1 b2 b3 : Byte) : Word :=
  b0.setWidth 32 ||| (b1.setWidth 32 <<< 8) ||| (b2.setWidth 32 <<< 16) ||| (b3.setWidth 32 <<< 24)

/-- `bytes_le32(w)`: the bytes `w[7:0], w[15:8], w[23:16], w[31:24]` in that order (00_scope R11). -/
def bytesLe32 (w : Word) : List Byte :=
  [w.extractLsb' 0 8, w.extractLsb' 8 8, w.extractLsb' 16 8, w.extractLsb' 24 8]

/-- Fault code of a reserved opcode (60_exceptions R151, R152). -/
def illegalOpcode : Byte := 0x01

/-- Fault code of a nonzero ARG on a command without operands (60_exceptions R151, R153). -/
def reservedArgument : Byte := 0x02

/-- Fault code of a FEED while FIN = 1 (60_exceptions R151, R154). -/
def feedAfterFinal : Byte := 0x03

/-- The header's OP field, `H[31:28]` (30_encoding R60). -/
def opField (h : Word) : BitVec 4 := h.extractLsb' 28 4

/-- The header's ARG field, `H[27:0]` (30_encoding R60). -/
def argField (h : Word) : BitVec 28 := h.extractLsb' 0 28

/-- The `Cmd` of 30_encoding R67: what a header alone says, before any payload is read. -/
inductive Header where
  | init
  | feed (len : BitVec 28)
  | final
  | hex
  | status
  /-- `Illegal(code)`: the fault this header raises when it is executed. -/
  | illegal (code : Byte)
  deriving DecidableEq, Repr

/-- A header of a command without operands: ARG must be 0, or it is a ReservedArgument (30_encoding R64). -/
def noArgument (h : Word) (cmd : Header) : Header :=
  if argField h = 0 then cmd else .illegal reservedArgument

/-- The `decode` of 30_encoding R67, on the assembled header word. -/
def decodeHeader (h : Word) : Header :=
  match (opField h).toNat with
  | 1 => noArgument h .init
  | 2 => .feed (argField h)
  | 3 => noArgument h .final
  | 4 => noArgument h .hex
  | 5 => noArgument h .status
  | _ => .illegal illegalOpcode

/-- The payload length a header announces: `LEN` for FEED, else none (30_encoding R66: "The engine reads a payload
after every header with `OP = 0x2`, and after no other"). -/
def Header.payloadLength : Header → Nat
  | .feed len => len.toNat
  | .init | .final | .hex | .status | .illegal _ => 0

/-- A command's length on the command channel (30_encoding R68). -/
def Header.commandLength (h : Header) : Nat := 4 + h.payloadLength

/-- What stands at the front of the command channel. -/
inductive Fetched where
  /-- A whole legal command, and the bytes after it. -/
  | command (i : Instr) (rest : List Byte)
  /-- An illegal header (4 bytes) with the fault it raises, and the bytes after it. -/
  | illegal (code : Byte) (rest : List Byte)
  /-- Not a whole command yet: the engine holds (20_memory R54). -/
  | incomplete
  deriving DecidableEq, Repr

/-- Reads one command from a byte stream: 4 header bytes, then exactly `LEN` payload bytes after a FEED header
(30_encoding R60, R63, R66, R67), then the rest of the stream untouched (20_memory R42). -/
def decode : List Byte → Fetched
  | h0 :: h1 :: h2 :: h3 :: rest =>
    match decodeHeader (le32 h0 h1 h2 h3) with
    | .init => .command .init rest
    | .feed len =>
      if len.toNat ≤ rest.length then
        .command (.feed len (rest.take len.toNat)) (rest.drop len.toNat)
      else
        .incomplete
    | .final => .command .final rest
    | .hex => .command .hex rest
    | .status => .command .status rest
    | .illegal code => .illegal code rest
  | _ => .incomplete

/-- The header word of a command, from the opcode map of 30_encoding R61. -/
def headerWord : Instr → Word
  | .init => 0x10000000
  | .feed len _ => 0x20000000 ||| len.setWidth 32
  | .final => 0x30000000
  | .hex => 0x40000000
  | .status => 0x50000000

/-- The payload bytes that follow a command's header (30_encoding R63). -/
def Instr.payload : Instr → List Byte
  | .feed _ payload => payload
  | .init | .final | .hex | .status => []

/-- The bytes of a command on the command channel, first byte first (20_memory R44; 30_encoding R60, R63). -/
def encode (i : Instr) : List Byte := bytesLe32 (headerWord i) ++ i.payload

/-- `n` bytes of a number, the least significant first. -/
def bytesOfNat : Nat → Nat → List Byte
  | 0, _ => []
  | n + 1, w => BitVec.ofNat 8 w :: bytesOfNat n (w / 256)

/-- The channel bytes of the instruction whose bits are `w`, numbered as spec/opcode_table.json numbers them: bit 0 is
bit 0 of the first byte. A FEED's payload lies above the bits the table gives, so it is zero bytes, as many as the
header says (log entry 11). -/
def tableBytes (nbits w : Nat) : List Byte :=
  let bs := bytesOfNat (nbits / 8) w
  let h := decodeHeader (le32 (bs.getD 0 0) (bs.getD 1 0) (bs.getD 2 0) (bs.getD 3 0))
  bs ++ List.replicate (h.commandLength - bs.length) 0

/-- What the decoder reads from an opcode-table word; `none` where it names a fault or the command is not whole. -/
def decodeTableWord (nbits w : Nat) : Option Instr :=
  match decode (tableBytes nbits w) with
  | .command i _ => some i
  | .illegal _ _ | .incomplete => none

end Sys2Proof
end

