-- ==== Sys2Proof/Machine/BlockTransform.lean ====
section
/-! DEFINITION. The block transform (43_block_transform): a pure function of four accumulators and one 64-byte block,
exposed on its own as R135 asks. -/

namespace Sys2Proof.Machine

/-- Left rotation, `(x << s) OR (x >> (32 - s))` (00_scope R10; 43_block_transform R132). -/
def rotl32 (x : Word) (s : Nat) : Word := (x <<< s) ||| (x >>> (32 - s))

/-- Pass 1 function (43_block_transform R122; a select, 90_conflicts C1). -/
def mixF (x y z : Word) : Word := (x &&& y) ||| (~~~x &&& z)

/-- Pass 2 function, `F(z, x, y)` (43_block_transform R123). -/
def mixG (x y z : Word) : Word := mixF z x y

/-- Pass 3 function (43_block_transform R124). -/
def mixH (x y z : Word) : Word := x ^^^ y ^^^ z

/-- Pass 4 function (43_block_transform R125). -/
def mixI (x y z : Word) : Word := y ^^^ (x ||| ~~~z)

/-- `Fn_i`: the function of round `i`'s pass (43_block_transform R126). -/
def mix (i : Nat) (x y z : Word) : Word :=
  if i < 16 then mixF x y z
  else if i < 32 then mixG x y z
  else if i < 48 then mixH x y z
  else mixI x y z

/-- `X[j] = le32(blk[4j], blk[4j+1], blk[4j+2], blk[4j+3])` (43_block_transform R121). -/
def blockWord (blk : List Byte) (j : Nat) : Word :=
  le32 (blk.getD (4 * j) 0) (blk.getD (4 * j + 1) 0) (blk.getD (4 * j + 2) 0) (blk.getD (4 * j + 3) 0)

/-- `X[0..15]` (43_block_transform R121). -/
def blockWords (blk : List Byte) : List Word := (List.range 16).map (blockWord blk)

/-- The value round `i` gives its target: `added + rotl32(target + f + X[K[i]] + T[i], S[i])`
(43_block_transform R130). -/
def roundValue (x : List Word) (i : Nat) (target f added : Word) : Word :=
  added + rotl32 (target + f + x.getD (tableK.getD i 0) 0 + tableT.getD i 0) (tableS.getD i 0)

/-- Round `i` in the rotating form of 43_block_transform R131. -/
def roundStep (x : List Word) (w : Acc) (i : Nat) : Acc :=
  ⟨w.d, roundValue x i w.a (mix i w.b w.c w.d) w.b, w.b, w.c⟩

/-- `(acc[0] + a, acc[1] + b, acc[2] + c, acc[3] + d)` (43_block_transform R131). -/
def Acc.add (acc w : Acc) : Acc := ⟨acc.a + w.a, acc.b + w.b, acc.c + w.c, acc.d + w.d⟩

/-- `BlockTransform(acc, blk)` in the rotating form of 43_block_transform R131. It is defined for a `blk` of 64 bytes
(R120), and every caller passes one (log entry 9). -/
def blockTransform (acc : Acc) (blk : List Byte) : Acc :=
  Acc.add acc ((List.range 64).foldl (roundStep (blockWords blk)) acc)

/-- Round `i` in the named form of 43_block_transform R130: its target, its inputs and its added register by the
table's columns, which cycle with period 4. -/
def namedRound (x : List Word) (w : Acc) (i : Nat) : Acc :=
  match i % 4 with
  | 0 => { w with a := roundValue x i w.a (mix i w.b w.c w.d) w.b }
  | 1 => { w with d := roundValue x i w.d (mix i w.a w.b w.c) w.a }
  | 2 => { w with c := roundValue x i w.c (mix i w.d w.a w.b) w.d }
  | _ => { w with b := roundValue x i w.b (mix i w.c w.d w.a) w.c }

/-- The block transform by the named table of 43_block_transform R130. The engine runs `blockTransform`; the two are
equal (R131), which a statement says. -/
def blockTransformNamed (acc : Acc) (blk : List Byte) : Acc :=
  Acc.add acc ((List.range 64).foldl (namedRound (blockWords blk)) acc)

end Sys2Proof.Machine
end

