-- ==== Sys2Proof/Machine/Digest.lean ====
section
/-! DEFINITION. The digest layout and its hex rendering (42_digest_formatter R100, R101). -/

namespace Sys2Proof.Machine

/-- Serialize: `DIGEST[4*i + j] <- ACC[i][8*j+7 : 8*j]` (42_digest_formatter R100). -/
def serialize (acc : Acc) : Vector Byte 16 :=
  #v[acc.a.extractLsb' 0 8, acc.a.extractLsb' 8 8, acc.a.extractLsb' 16 8, acc.a.extractLsb' 24 8,
     acc.b.extractLsb' 0 8, acc.b.extractLsb' 8 8, acc.b.extractLsb' 16 8, acc.b.extractLsb' 24 8,
     acc.c.extractLsb' 0 8, acc.c.extractLsb' 8 8, acc.c.extractLsb' 16 8, acc.c.extractLsb' 24 8,
     acc.d.extractLsb' 0 8, acc.d.extractLsb' 8 8, acc.d.extractLsb' 16 8, acc.d.extractLsb' 24 8]

/-- HexChar: a 4-bit value as one lowercase ASCII hex digit (42_digest_formatter R101). -/
def hexChar (v : BitVec 4) : Byte :=
  if v ≤ 9 then 0x30 + v.setWidth 8 else 0x61 + (v.setWidth 8 - 10)

/-- HexByte: two characters, the high nibble first (42_digest_formatter R101). -/
def hexByte (b : Byte) : List Byte := [hexChar (b.extractLsb' 4 4), hexChar (b.extractLsb' 0 4)]

/-- HexDigest: the 32 characters of a digest (42_digest_formatter R101). -/
def hexDigest (digest : Vector Byte 16) : List Byte := digest.toList.flatMap hexByte

end Sys2Proof.Machine
end

