-- ==== Sys2Proof/Machine/State.lean ====
section
/-! DEFINITION. The engine's state as plain data, the ways a step can stop, and the state after reset. -/

namespace Sys2Proof.Machine

/-- The staging buffer `BUF[0..63]` (10_state R24; 20_memory R40, R41): (offset, byte) pairs with the offsets strictly
rising and below 64 and no zero byte. An offset that is not listed reads as `Memory.unlisted` (Machine/Ops.lean). -/
abbrev Memory := List Host.Cell

/-- Everything the engine holds between commands (10_state R20), and beside it the two channels and the reset input
that join it to its host (20_memory R40, R53). -/
structure State where
  /-- `ACC[0..3]` (10_state R21). -/
  acc : Acc
  /-- `COUNT_LO`, the low half of the message bit count (10_state R23). -/
  countLo : Word
  /-- `COUNT_HI`, its high half (10_state R23). -/
  countHi : Word
  /-- `BUF[0..63]` (10_state R24). -/
  buf : Memory
  /-- `BUFCNT`, a 6-bit register: how many bytes of `BUF` are valid (10_state R25). -/
  bufCnt : BitVec 6
  /-- `FIN`: the message is finalized (10_state R27). -/
  fin : Bool
  /-- `DIGEST[0..15]` (10_state R28). -/
  digest : Vector Byte 16
  /-- `FAULT`: the code of the first fault since reset, `0x00` for none (10_state R29). -/
  fault : Byte
  /-- The command channel: the bytes the engine has not read yet, the next one first, as far as the next assertion of
  the reset input (20_memory R42; log entry 4). -/
  cmd : List Byte
  /-- The response channel: every byte emitted so far, in order (20_memory R43; log entry 6). -/
  resp : List Byte
  /-- The reset input: the assertions of reset still to come, in order, each with the bytes the host sends after it
  (70_reset_and_hazards R170, R171; log entry 5). -/
  resets : List (List Byte)
  deriving DecidableEq, Repr

/-- Why a step does not answer a next state. A fault of the ENGINE (IllegalOpcode, ReservedArgument, FeedAfterFinal) is
none of these: it is a next state with a code in the `FAULT` register (60_exceptions R150, R156). -/
inductive Fault where
  /-- The stuck state of 20_memory R54: the command at the front of the channel is not whole and no reset is to come,
  so the engine "has no step: it holds and changes no state". Raised by `holdOrReset` alone. Safe: the engine takes no
  step either (log entry 3). -/
  | held
  deriving DecidableEq, Repr

/-- Why a step gives an instruction no meaning. -/
inductive Refusal where
  /-- An instruction without a meaning, by its mnemonic. Raised by no arm of `exec`: every row of the opcode table has
  its meaning. Safe: the machine stops. -/
  | notModelled (mnemonic : String)
  deriving DecidableEq, Repr

/-- The answer of one step. -/
abbrev Answer := Host.Outcome State Fault Refusal

/-- The engine right after reset (10_state R35; 70_reset_and_hazards R170). The spec leaves the bytes of `BUF` and
`DIGEST` unspecified: they are `0x00` here, a DESIGN CHOICE (log entries 1 and 2). The channels are empty and no
further reset is to come: a program is what the host sends (log entry 4). -/
def State.reset : State where
  acc := initialAcc
  countLo := 0
  countHi := 0
  buf := []
  bufCnt := 0
  fin := false
  digest := #v[0, 0, 0, 0, 0, 0, 0, 0, 0, 0, 0, 0, 0, 0, 0, 0]
  fault := 0x00
  cmd := []
  resp := []
  resets := []

end Sys2Proof.Machine
end

