-- ==== Sys2Proof/Machine/Ops.lean ====
section
/-! DEFINITION. The named operations over the staging buffer, the channels and the fault register, which every meaning
is written with: MemRead and MemWrite (20_memory R41), Emit (R43), raise Fault (60_exceptions R156), the faulted gate of
the step (41_streaming_hasher R80), and the way out of a fault, which is reset (70_reset_and_hazards R170). -/

namespace Sys2Proof.Machine

/-! ## The staging buffer -/

/-- What an offset that is not listed reads as: the reset content of `BUF`, which the spec leaves unspecified
(10_state R35). DESIGN CHOICE `0x00` (log entry 1); no response and no later state depends on it (10_state R36). -/
def Memory.unlisted : Byte := 0x00

/-- `MemRead(off, 1)` (20_memory R41). -/
def Memory.read : Memory → Nat → Byte
  | [], _ => Memory.unlisted
  | (a, v) :: m, off => if a = off then v else Memory.read m off

/-- `MemWrite(off, 1, v)` (20_memory R41), keeping the canonical form. Every rule writes below 64 (log entry 17). -/
def Memory.write : Memory → Nat → Byte → Memory
  | [], off, v => if v = Memory.unlisted then [] else [(off, v)]
  | (a, w) :: m, off, v =>
    if off < a then
      if v = Memory.unlisted then (a, w) :: m else (off, v) :: (a, w) :: m
    else if off = a then
      if v = Memory.unlisted then m else (off, v) :: m
    else
      (a, w) :: Memory.write m off v

/-- The canonical form from offset `lo` on: offsets strictly rising, each inside the buffer, and no entry equal to what
an unlisted offset reads as. -/
def Memory.wfFrom : Nat → Memory → Bool
  | _, [] => true
  | lo, (a, v) :: m => decide (lo ≤ a) && decide (a < 64) && v != Memory.unlisted && Memory.wfFrom (a + 1) m

/-- The canonical form of the staging buffer: equal buffers are equal data. -/
def Memory.wf (m : Memory) : Bool := Memory.wfFrom 0 m

/-- `MemWrite(off + k, 1, bs[k])` for `k` from 0 on, in order. -/
def Memory.writeBytes : Memory → Nat → List Byte → Memory
  | m, _, [] => m
  | m, off, b :: bs => Memory.writeBytes (m.write off b) (off + 1) bs

/-- `MemWrite(k, 1, 0x00)` for `n` offsets from `off` on. -/
def Memory.zeroFill (m : Memory) (off n : Nat) : Memory := m.writeBytes off (List.replicate n 0x00)

/-- `MemRead(off, 4)`, little-endian (20_memory R41). -/
def Memory.read4 (m : Memory) (off : Nat) : Word :=
  le32 (m.read off) (m.read (off + 1)) (m.read (off + 2)) (m.read (off + 3))

/-- `MemWrite(off, 4, v)`, little-endian (20_memory R41). -/
def Memory.write4 (m : Memory) (off : Nat) (v : Word) : Memory := m.writeBytes off (bytesLe32 v)

/-- `BUF[0..n)`. -/
def Memory.bytes (m : Memory) (n : Nat) : List Byte := (List.range n).map m.read

/-! ## The channels -/

/-- The state with `rest` left on the command channel. -/
def State.withCmd (s : State) (rest : List Byte) : State := { s with cmd := rest }

/-- `Emit(bs)`: append `bs` to the response channel (00_scope R12; 20_memory R43). -/
def State.emit (s : State) (bs : List Byte) : State := { s with resp := s.resp ++ bs }

/-- What stands at the front of the command channel. -/
def fetch (s : State) : Fetched := decode s.cmd

/-! ## Faults, and the way out of them -/

/-- `raise Fault(code)` (60_exceptions R156): the first fault is kept, nothing else is written, nothing is emitted. -/
def raiseFault (code : Byte) (s : State) : State :=
  if s.fault = 0x00 then { s with fault := code } else s

/-- The gate of 41_streaming_hasher R80: in FAULTED a command other than STATUS is discarded, with no state change and
no response (60_exceptions R157); otherwise `act` is done. -/
def whenNotFaulted (s : State) (act : State → State) : Answer :=
  if s.fault = 0x00 then .next (act s) else .next s

/-- Executing an illegal header (41_streaming_hasher R80; 60_exceptions R152, R153). -/
def execIllegal (code : Byte) (s : State) : Answer := whenNotFaulted s (raiseFault code)

/-- The reset input is asserted (70_reset_and_hazards R170): every element takes its reset value, `FAULT` included, the
bytes of a partly received command are discarded (R171), and the host's bytes from here on are `sent`. Responses
already given stay given. This is the one way out of FAULTED (60_exceptions R158). -/
def State.afterReset (s : State) (sent : List Byte) (later : List (List Byte)) : State :=
  { State.reset with cmd := sent, resp := s.resp, resets := later }

/-- No whole command is on the channel: the engine holds until the reset input lifts the hold (20_memory R54;
70_reset_and_hazards R171). -/
def holdOrReset (s : State) : Answer :=
  match s.resets with
  | [] => .fault .held
  | sent :: later => .next (s.afterReset sent later)

end Sys2Proof.Machine
end

