-- ==== Sys2Proof/Machine/Flags.lean ====
section
/-! DEFINITION. The views of state: the STATUS word (10_state R30), the 64-bit bit count (R23) and the lifecycle state
(R34). The engine's only flags are `FIN` and `FAULT` (00_scope R13). -/

namespace Sys2Proof.Machine

/-- `zext_32(FIN)`. -/
def State.finWord (s : State) : Word := if s.fin then 1 else 0

/-- The STATUS word: `FAULT` in [7:0], `FIN` in [8], `BUFCNT` in [21:16], 0 elsewhere (10_state R30;
41_streaming_hasher R90). -/
def State.statusWord (s : State) : Word :=
  s.fault.setWidth 32 ||| (s.finWord <<< 8) ||| (s.bufCnt.setWidth 32 <<< 16)

/-- `COUNT = COUNT_HI * 2^32 + COUNT_LO` (10_state R23). -/
def State.count (s : State) : Nat := s.countHi.toNat * 2 ^ 32 + s.countLo.toNat

/-- The three lifecycle states of 10_state R34. -/
inductive Lifecycle where
  | absorbing
  | finalized
  | faulted
  deriving DecidableEq, Repr

/-- The lifecycle state, read off `FIN` and `FAULT` (10_state R34). -/
def State.lifecycle (s : State) : Lifecycle :=
  if s.fault ≠ 0x00 then .faulted else if s.fin then .finalized else .absorbing

end Sys2Proof.Machine
end

