-- ==== Sys2Proof/Machine/Operands.lean ====
section
/-! DEFINITION. The one operand form of the command set: FEED's length `LEN` and its payload (30_encoding R60, R62,
R63). No command has a register operand, an immediate other than `LEN`, or an addressing mode. -/

namespace Sys2Proof.Machine

/-- The run's length in bits, `zext_32(LEN) << 3`: exact, because `LEN < 2^28` (41_streaming_hasher R83). -/
def lenBits (len : BitVec 28) : Word := len.setWidth 32 <<< 3

/-- Bytes still missing to a full staging buffer, `64 - BUFCNT` (41_streaming_hasher R84). -/
def State.need (s : State) : Nat := 64 - s.bufCnt.toNat

end Sys2Proof.Machine
end

