-- ==== Sys2Proof/Machine/Hasher.lean ====
section
/-! DEFINITION. The streaming hasher (41_streaming_hasher): INIT, FEED, FINAL and STATUS, over CountAdd, Absorb and
Finalize. -/

namespace Sys2Proof.Machine

/-! ## INIT -/

/-- The writes of INIT (41_streaming_hasher R81); `BUF`, `DIGEST` and `FAULT` are not written. -/
def startMessage (s : State) : State :=
  { s with acc := initialAcc, countLo := 0, countHi := 0, bufCnt := 0, fin := false }

/-- INIT (41_streaming_hasher R81). -/
def execInit (s : State) : Answer := whenNotFaulted s startMessage

/-! ## FEED -/

/-- CountAdd: a 32-bit add with carry into the high half (41_streaming_hasher R83). -/
def countAdd (len : BitVec 28) (s : State) : State :=
  let lo := s.countLo + lenBits len
  let carry : Word := if lo < lenBits len then 1 else 0
  { s with countLo := lo, countHi := s.countHi + carry }

/-- Absorb's loop over `k` whole blocks, straight from the payload (41_streaming_hasher R84; log entry 10). -/
def absorbBlocks : Nat → Acc → List Byte → Acc
  | 0, acc, _ => acc
  | k + 1, acc, p =>
    absorbBlocks k (blockTransform acc (p.take 64)) (p.drop 64)

/-- Absorb with an empty staging buffer: the loop, which runs while 64 bytes or more are left, then the tail
(41_streaming_hasher R84). -/
def absorbWhole (p : List Byte) (s : State) : State :=
  let blocks := p.length / 64
  let tail := p.drop (64 * blocks)
  { s with
    acc := absorbBlocks blocks s.acc p
    buf := s.buf.writeBytes 0 tail
    bufCnt := BitVec.ofNat 6 tail.length }

/-- Absorb's early return: the run does not fill the buffer (41_streaming_hasher R84). -/
def stageRun (p : List Byte) (s : State) : State :=
  { s with
    buf := s.buf.writeBytes s.bufCnt.toNat p
    bufCnt := s.bufCnt + BitVec.ofNat 6 p.length }

/-- Absorb completing the staged block with the run's first bytes, and transforming it (41_streaming_hasher R84). -/
def fillBlock (p : List Byte) (s : State) : State :=
  let full := s.buf.writeBytes s.bufCnt.toNat (p.take s.need)
  { s with buf := full, acc := blockTransform s.acc (full.bytes 64), bufCnt := 0 }

/-- Absorb (41_streaming_hasher R84). -/
def absorb (p : List Byte) (s : State) : State :=
  if 0 < s.bufCnt.toNat then
    if p.length < s.need then stageRun p s
    else absorbWhole (p.drop s.need) (fillBlock p s)
  else absorbWhole p s

/-- The body of FEED (41_streaming_hasher R82): FeedAfterFinal when `FIN = 1`, else CountAdd and Absorb. -/
def feedRun (len : BitVec 28) (p : List Byte) (s : State) : State :=
  if s.fin then raiseFault feedAfterFinal s else absorb p (countAdd len s)

/-- FEED (41_streaming_hasher R82). -/
def execFeed (len : BitVec 28) (payload : List Byte) (s : State) : Answer :=
  whenNotFaulted s (feedRun len payload)

/-! ## FINAL -/

/-- The staged bytes with the single `0x80` byte after them (41_streaming_hasher R87). -/
def State.marked (s : State) : Memory := s.buf.write s.bufCnt.toNat 0x80

/-- "Fewer than 8 bytes of room left": `c > 56` after the `0x80` byte (41_streaming_hasher R87). -/
def State.overflows (s : State) : Bool := decide (56 < s.bufCnt.toNat + 1)

/-- Finalize's first part: the `0x80` byte, and where no room is left for the length, a zero-filled block transformed
at once (41_streaming_hasher R87). -/
def padBlock (s : State) : State :=
  let c := s.bufCnt.toNat + 1
  if s.overflows then
    let padded := s.marked.zeroFill c (64 - c)
    { s with buf := padded, acc := blockTransform s.acc (padded.bytes 64) }
  else { s with buf := s.marked }

/-- The last padded block: zeros up to offset 56, then the bit count, low half first (41_streaming_hasher R87;
20_memory R49). `c` is the offset of the first zero. -/
def lastBlock (m : Memory) (c : Nat) (lo hi : Word) : Memory :=
  ((m.zeroFill c (56 - c)).write4 56 lo).write4 60 hi

/-- Finalize (41_streaming_hasher R87). -/
def finalize (s : State) : State :=
  let c := if s.overflows then 0 else s.bufCnt.toNat + 1
  let t := padBlock s
  let last := lastBlock t.buf c s.countLo s.countHi
  let acc := blockTransform t.acc (last.bytes 64)
  { s with acc := acc, buf := last, bufCnt := 0, digest := serialize acc, fin := true }

/-- `if FIN == 0: Finalize()` (41_streaming_hasher R86; 42_digest_formatter R102). -/
def finalizeIfNeeded (s : State) : State := if s.fin then s else finalize s

/-- The body of FINAL: finalize if needed, then emit the 16 digest bytes, `DIGEST[0]` first (41_streaming_hasher R86). -/
def answerDigest (s : State) : State :=
  let t := finalizeIfNeeded s
  t.emit t.digest.toList

/-- FINAL (41_streaming_hasher R86). -/
def execFinal (s : State) : Answer := whenNotFaulted s answerDigest

/-! ## STATUS -/

/-- STATUS (41_streaming_hasher R90): it executes in FAULTED too (60_exceptions R157). -/
def execStatus (s : State) : Answer := .next (s.emit (bytesLe32 s.statusWord))

end Sys2Proof.Machine
end

