-- ==== Sys2Proof/Machine/Formatter.lean ====
section
/-! DEFINITION. The digest formatter's command, HEX (42_digest_formatter R102). -/

namespace Sys2Proof.Machine

/-- The body of HEX: finalize if needed, then emit the rendering of the digest (42_digest_formatter R102). -/
def answerHex (s : State) : State :=
  let t := finalizeIfNeeded s
  t.emit (hexDigest t.digest)

/-- HEX (42_digest_formatter R102). -/
def execHex (s : State) : Answer := whenNotFaulted s answerHex

end Sys2Proof.Machine
end

