-- ==== Sys2Proof/Machine/Dispatch.lean ====
section
/-! DEFINITION. One arm per command of the opcode table: the `case` of 41_streaming_hasher R80. -/

namespace Sys2Proof.Machine

def exec (i : Instr) (s : State) : Host.Outcome State Fault Refusal :=
  match i with
  | .init => Sys2Proof.Machine.execInit s
  | .feed len payload => Sys2Proof.Machine.execFeed len payload s
  | .final => Sys2Proof.Machine.execFinal s
  | .hex => Sys2Proof.Machine.execHex s
  | .status => Sys2Proof.Machine.execStatus s

end Sys2Proof.Machine
end

