-- ==== Sys2Proof/Machine/Step.lean ====
section
/-! DEFINITION. One step of the engine (41_streaming_hasher R80), on a state that holds its channels. -/

namespace Sys2Proof.Machine

/-- One step: the whole command at the front of the command channel is read off it and executed (20_memory R46, R54);
an illegal header raises its fault; where no whole command is there, the engine holds, or takes the reset input. -/
def step (s : State) : Host.Outcome State Fault Refusal :=
  match fetch s with
  | .command i rest => exec i (s.withCmd rest)
  | .illegal code rest => execIllegal code (s.withCmd rest)
  | .incomplete => holdOrReset s

/-- The state with an opcode-table word, and the zero payload its header announces, put at the front of the command
channel, where `step` reads its next command (log entry 11). -/
def State.withFetchWord (s : State) (nbits w : Nat) : State := s.withCmd (tableBytes nbits w ++ s.cmd)

end Sys2Proof.Machine
end

