-- ==== Sys2Proof/Machine/Assembler.lean ====
section
/-! DEFINITION. The assembler syntax and the pseudo-instructions of 30_encoding R70 and R71: from one line of ASCII
characters to the bytes on the command channel. The engine does not use it; a host does (log entry 16). -/

namespace Sys2Proof.Machine

/-! ## Tokens -/

/-- A token of an assembler line. A quoted token keeps its escapes. -/
inductive Token where
  | word (cs : List Char)
  | comma
  | quoted (cs : List Char)
  deriving DecidableEq, Repr

/-- Where the scanner stands: between tokens, in a word, in quotes, or after a backslash in quotes; what has been read
of the token is kept last character first. -/
inductive Scan where
  | gap
  | word (read : List Char)
  | quotes (read : List Char)
  | escape (read : List Char)

/-- A blank between tokens. -/
def isBlank (c : Char) : Bool := c == ' ' || c == '\t'

/-- The tokens of a line; `;` outside quotes starts a comment to the end of the line (30_encoding R70), and a quote that
is not closed makes the line illegal. -/
def tokens : Scan → List Char → Option (List Token)
  | .gap, [] => some []
  | .word read, [] => some [.word read.reverse]
  | .quotes _, [] => none
  | .escape _, [] => none
  | .gap, c :: cs =>
    if c = ';' then some []
    else if isBlank c then tokens .gap cs
    else if c = ',' then (tokens .gap cs).map (Token.comma :: ·)
    else if c = '"' then tokens (.quotes []) cs
    else tokens (.word [c]) cs
  | .word read, c :: cs =>
    if c = ';' then some [.word read.reverse]
    else if isBlank c then (tokens .gap cs).map (Token.word read.reverse :: ·)
    else if c = ',' then (tokens .gap cs).map (Token.word read.reverse :: Token.comma :: ·)
    else if c = '"' then (tokens (.quotes []) cs).map (Token.word read.reverse :: ·)
    else tokens (.word (c :: read)) cs
  | .quotes read, c :: cs =>
    if c = '"' then (tokens .gap cs).map (Token.quoted read.reverse :: ·)
    else if c = '\\' then tokens (.escape (c :: read)) cs
    else tokens (.quotes (c :: read)) cs
  | .escape read, c :: cs => tokens (.quotes (c :: read)) cs

/-! ## Numbers and payloads -/

/-- The value of a decimal digit. -/
def decDigit (c : Char) : Option Nat :=
  if '0' ≤ c ∧ c ≤ '9' then some (c.toNat - '0'.toNat) else none

/-- The value of a hex digit, of either case. -/
def hexDigit (c : Char) : Option Nat :=
  if '0' ≤ c ∧ c ≤ '9' then some (c.toNat - '0'.toNat)
  else if 'a' ≤ c ∧ c ≤ 'f' then some (c.toNat - 'a'.toNat + 10)
  else if 'A' ≤ c ∧ c ≤ 'F' then some (c.toNat - 'A'.toNat + 10)
  else none

/-- The value of a digit string in a base, its digits read by `digit`. -/
def digits (base : Nat) (digit : Char → Option Nat) : Nat → List Char → Option Nat
  | acc, [] => some acc
  | acc, c :: cs =>
    match digit c with
    | some d => digits base digit (base * acc + d) cs
    | none => none

/-- "Numbers are decimal, or hex with `0x`" (30_encoding R70). -/
def number : List Char → Option Nat
  | [] => none
  | '0' :: 'x' :: [] => none
  | '0' :: 'x' :: c :: cs => digits 16 hexDigit 0 (c :: cs)
  | c :: cs => digits 10 decDigit 0 (c :: cs)

/-- A byte from its two hex digits. -/
def hexPair (hi lo : Char) : Option Byte :=
  match hexDigit hi, hexDigit lo with
  | some h, some l => some (BitVec.ofNat 8 (16 * h + l))
  | _, _ => none

/-- `x"<hex>"`: "two hex digits per byte, first byte first" (30_encoding R70). -/
def hexBytes : List Char → Option (List Byte)
  | [] => some []
  | hi :: lo :: cs =>
    match hexPair hi lo, hexBytes cs with
    | some b, some bs => some (b :: bs)
    | _, _ => none
  | [_] => none

/-- `"<text>"`: one byte per character, printable ASCII with the escapes for a quote, a backslash and `\xHH`
(30_encoding R70). -/
def textBytes : List Char → Option (List Byte)
  | [] => some []
  | '\\' :: '"' :: cs => (textBytes cs).map ((0x22 : Byte) :: ·)
  | '\\' :: '\\' :: cs => (textBytes cs).map ((0x5C : Byte) :: ·)
  | '\\' :: 'x' :: hi :: lo :: cs =>
    match hexPair hi lo, textBytes cs with
    | some b, some bs => some (b :: bs)
    | _, _ => none
  | c :: cs =>
    if 0x20 ≤ c.toNat ∧ c.toNat ≤ 0x7E ∧ c ≠ '\\' then (textBytes cs).map (BitVec.ofNat 8 c.toNat :: ·)
    else none

/-! ## Lines -/

/-- A line of a program: the forms of 30_encoding R70 and the pseudo-instructions of R71. -/
inductive AsmLine where
  /-- A line with no command: only blanks or a comment. -/
  | empty
  | init
  /-- `FEED <n>` with no payload (legal only for `n = 0`), `FEED <n>, x"<hex>"` and `FEED <n>, "<text>"`. -/
  | feed (payload : List Byte)
  | final
  | hex
  | status
  /-- `.word <value>`: any 32-bit word, legal or not. -/
  | word (value : Word)
  /-- `FEEDS "<text>"`. -/
  | feeds (text : List Byte)
  /-- `FEEDN <n>, <b>`. -/
  | feedn (n : Nat) (b : Byte)
  /-- `HASHHEX "<text>"`. -/
  | hashhex (text : List Byte)
  deriving DecidableEq, Repr

/-- FEED with a payload: "the assembler refuses the line unless the byte count is `n`" (30_encoding R70). -/
def feedLine (n : Option Nat) (payload : Option (List Byte)) : Option AsmLine :=
  match n, payload with
  | some n, some p => if p.length = n then some (.feed p) else none
  | _, _ => none

/-- A line from its tokens. -/
def lineOf : List Token → Option AsmLine
  | [] => some .empty
  | [.word ['I', 'N', 'I', 'T']] => some .init
  | [.word ['F', 'E', 'E', 'D'], .word n] => if number n = some 0 then some (.feed []) else none
  | [.word ['F', 'E', 'E', 'D'], .word n, .comma, .word ['x'], .quoted hex] => feedLine (number n) (hexBytes hex)
  | [.word ['F', 'E', 'E', 'D'], .word n, .comma, .quoted text] => feedLine (number n) (textBytes text)
  | [.word ['F', 'I', 'N', 'A', 'L']] => some .final
  | [.word ['H', 'E', 'X']] => some .hex
  | [.word ['S', 'T', 'A', 'T', 'U', 'S']] => some .status
  | [.word ['.', 'w', 'o', 'r', 'd'], .word v] =>
    match number v with
    | some v => if v < 2 ^ 32 then some (.word (BitVec.ofNat 32 v)) else none
    | none => none
  | [.word ['F', 'E', 'E', 'D', 'S'], .quoted text] => (textBytes text).map .feeds
  | [.word ['F', 'E', 'E', 'D', 'N'], .word n, .comma, .word b] =>
    match number n, number b with
    | some n, some b => if b < 256 then some (.feedn n (BitVec.ofNat 8 b)) else none
    | _, _ => none
  | [.word ['H', 'A', 'S', 'H', 'H', 'E', 'X'], .quoted text] => (textBytes text).map .hashhex
  | _ => none

/-- A line from its characters. -/
def parseLine (line : List Char) : Option AsmLine := (tokens .gap line).bind lineOf

/-! ## Expansion and assembly -/

/-- A payload cut into runs of at most `0x0FFFFFFF` bytes, in order; each run but the last is full, and where there
are several the last has at least 1 byte (30_encoding R71). The first argument bounds the number of cuts. -/
def cutRun : Nat → List Byte → List (List Byte)
  | 0, p => [p]
  | n + 1, p =>
    if Config.maxRun < p.length then p.take Config.maxRun :: cutRun n (p.drop Config.maxRun) else [p]

/-- The runs of a payload (30_encoding R71). -/
def runsOf (p : List Byte) : List (List Byte) := cutRun (p.length / Config.maxRun) p

/-- FEED of one run of at most `0x0FFFFFFF` bytes, its length field the byte count. -/
def feedOf (p : List Byte) : Instr := .feed (BitVec.ofNat 28 p.length) p

/-- FEED of a payload of any length, as one FEED for each of its runs (30_encoding R71). -/
def feedAll (p : List Byte) : List Instr := (runsOf p).map feedOf

/-- What a line puts on the channel: a command, or the word of a `.word` line. -/
inductive AsmItem where
  | command (i : Instr)
  | raw (w : Word)
  deriving DecidableEq, Repr

/-- A line's expansion (30_encoding R70, R71). -/
def AsmLine.expand : AsmLine → List AsmItem
  | .empty => []
  | .init => [.command .init]
  | .feed p => (feedAll p).map .command
  | .final => [.command .final]
  | .hex => [.command .hex]
  | .status => [.command .status]
  | .word v => [.raw v]
  | .feeds text => (feedAll text).map .command
  | .feedn n b => (feedAll (List.replicate n b)).map .command
  | .hashhex text => AsmItem.command .init :: ((feedAll text).map .command ++ [.command .hex])

/-- An item's bytes, in channel byte order (30_encoding R60, R72). -/
def AsmItem.bytes : AsmItem → List Byte
  | .command i => encode i
  | .raw w => bytesLe32 w

/-- The channel bytes of one line; `none` where the assembler refuses it. -/
def assembleLine (line : List Char) : Option (List Byte) :=
  (parseLine line).map fun l => l.expand.flatMap AsmItem.bytes

/-- "A program is one command per line" (30_encoding R70): the channel bytes of its lines, in order. -/
def assemble : List (List Char) → Option (List Byte)
  | [] => some []
  | line :: lines =>
    match assembleLine line, assemble lines with
    | some bs, some rest => some (bs ++ rest)
    | _, _ => none

end Sys2Proof.Machine
end

