-- ==== Sys2Proof/Machine/Message.lean ====
section
/-! DEFINITION. What the commands compute, said at the level of whole messages: the blocks of a byte string, the padded
message (41_streaming_hasher R87, R88), its MD5 digest (00_scope R1, R2), and what it means that the engine holds a
message. The step does not use this file; statements do. -/

namespace Sys2Proof.Machine

/-- The consecutive whole 64-byte blocks of a byte string, in order; an incomplete last block is left out. -/
def wholeBlocks (bs : List Byte) : List (List Byte) :=
  (List.range (bs.length / 64)).map fun k =>
    (bs.drop (64 * k)).take 64

/-- The bytes after the last whole block. -/
def leftover (bs : List Byte) : List Byte := bs.drop (64 * (bs.length / 64))

/-- The block transform run on the whole blocks of a byte string, in order. -/
def transformAll (acc : Acc) (bs : List Byte) : Acc := (wholeBlocks bs).foldl blockTransform acc

/-- `z`: the least number of zero bytes, 0 to 63, that makes `n + 1 + z + 8` a multiple of 64
(41_streaming_hasher R88). -/
def zeroPad (n : Nat) : Nat := (119 - n % 64) % 64

/-- The padding of `n` staged or fed bytes: `0x80`, the zeros, and the bit count's two halves, each little-endian, low
half first (00_scope R14 "Padding"; 41_streaming_hasher R87). -/
def padding (n : Nat) (lo hi : Word) : List Byte :=
  0x80 :: (List.replicate (zeroPad n) 0x00 ++ bytesLe32 lo ++ bytesLe32 hi)

/-- The staged bytes `BUF[0..BUFCNT)` (10_state R24). -/
def State.staged (s : State) : List Byte := s.buf.bytes s.bufCnt.toNat

/-- The low half of the bit count of an `n`-byte message, modulo 2^64 (41_streaming_hasher R83). -/
def bitCountLo (n : Nat) : Word := BitVec.ofNat 32 (8 * n)

/-- The high half of the bit count of an `n`-byte message, modulo 2^64 (41_streaming_hasher R83). -/
def bitCountHi (n : Nat) : Word := BitVec.ofNat 32 (8 * n / 2 ^ 32)

/-- The padded message (00_scope R14; 41_streaming_hasher R88). -/
def paddedMessage (m : List Byte) : List Byte :=
  m ++ padding m.length (bitCountLo m.length) (bitCountHi m.length)

/-- The MD5 digest of a message: the block transform over the blocks of the padded message from the initial
accumulators, serialized (00_scope R1, R2; 41_streaming_hasher R87, R88; 42_digest_formatter R100). -/
def md5 (m : List Byte) : Vector Byte 16 := serialize (transformAll initialAcc (paddedMessage m))

/-- The engine is ABSORBING and the message fed so far is `m`: its whole blocks are transformed, its leftover is staged
and its length in bits is counted modulo 2^64 (10_state R21, R23, R24, R25, R26, R34). -/
structure State.Holds (s : State) (m : List Byte) : Prop where
  notFaulted : s.fault = 0x00
  notFinal : s.fin = false
  accumulated : s.acc = transformAll initialAcc m
  countedLo : s.countLo = bitCountLo m.length
  countedHi : s.countHi = bitCountHi m.length
  counted : s.bufCnt.toNat = m.length % 64
  stagedTail : s.staged = leftover m

end Sys2Proof.Machine
end

