-- ==== Sys2Proof/Safety.lean ====
section
/-! DEFINITION. What counts as a safe run, the invariant of the engine's state, and which states the host cannot tell
apart, in the terms the statements use. -/

namespace Sys2Proof.Machine

/-- "A model treats a state with `FAULT != 0` as faulted and never final" (60_exceptions R158). -/
def State.Faulted (s : State) : Prop := s.fault ≠ 0x00

/-- A step is safe when it answers a next state that is not FAULTED: neither a hold nor a fault of the engine. -/
def SafeStep (s : State) : Prop := ∃ t, step s = .next t ∧ ¬t.Faulted

/-- The next command is fed properly (70_reset_and_hazards R175): it is whole, its header is legal, and it is no FEED
of a finalized message. -/
def State.WellDriven (s : State) : Prop :=
  ∃ i rest, fetch s = .command i rest ∧ (s.fin = true → ∀ len p, i ≠ .feed len p)

/-- What the spec says of every state between commands. -/
structure State.Inv (s : State) : Prop where
  /-- The staging buffer is in its canonical form and inside its 64 offsets (20_memory R40, R41). -/
  bufWf : s.buf.wf = true
  /-- "`COUNT_LO[2:0]` is always 0" (10_state R23). -/
  countAligned : s.countLo.extractLsb' 0 3 = 0
  /-- "While `FIN = 0`, `BUFCNT = (COUNT / 8) mod 64` holds between commands" (10_state R26). -/
  countStaged : s.fin = false → s.bufCnt.toNat = s.count / 8 % 64
  /-- After Finalize `BUFCNT = 0` (41_streaming_hasher R89). -/
  finalEmpty : s.fin = true → s.bufCnt = 0
  /-- After Finalize `ACC` holds "the final accumulators, whose little-endian bytes are `DIGEST`"
  (41_streaming_hasher R89). -/
  finalDigest : s.fin = true → s.digest = serialize s.acc
  /-- Codes `0x04` to `0xFF` are never produced (60_exceptions R151). -/
  faultCode : s.fault.toNat ≤ 3

/-- Two states that differ at most in bytes no rule reads: `BUF[BUFCNT..64)`, and `DIGEST` while `FIN = 0`
(10_state R36). -/
structure State.SameButUnread (s t : State) : Prop where
  acc : s.acc = t.acc
  countLo : s.countLo = t.countLo
  countHi : s.countHi = t.countHi
  bufCnt : s.bufCnt = t.bufCnt
  staged : s.staged = t.staged
  fin : s.fin = t.fin
  digest : s.fin = true → s.digest = t.digest
  fault : s.fault = t.fault
  cmd : s.cmd = t.cmd
  resp : s.resp = t.resp
  resets : s.resets = t.resets

/-- Two answers that differ at most in bytes no rule reads. -/
def SameAnswer : Host.Outcome State Fault Refusal → Host.Outcome State Fault Refusal → Prop
  | .next s, .next t => s.SameButUnread t
  | .fault r, .fault r' => r = r'
  | .refused r, .refused r' => r = r'
  | _, _ => False

/-- Execution of commands one after the other, on a state whose channels are left alone. -/
def execAll : List Instr → State → Host.Outcome State Fault Refusal
  | [], s => .next s
  | i :: is, s =>
    match exec i s with
    | .next t => execAll is t
    | .fault r => .fault r
    | .refused r => .refused r

end Sys2Proof.Machine
end

