-- ==== Sys2Proof/Certificates/Slice0/Obligations.lean ====
section
/-! DEFINITION. The statements for the provers, each from numbered rules of spec/. -/

open Sys2Proof Sys2Proof.Machine

/-! ## Commands on the channel (30_encoding) -/

/-- The worked encodings of 30_encoding R72, row by row: what the assembler writes for the line (for the longest FEED,
what the encoder writes for any payload of that length), and what the decoder reads from those bytes, whatever bytes
follow them. -/
def Obligations.WorkedEncodingsDecode : Prop :=
  (assembleLine ['I', 'N', 'I', 'T'] = some [0x00, 0x00, 0x00, 0x10]) ∧
  (assembleLine ['F', 'E', 'E', 'D', ' ', '0'] = some [0x00, 0x00, 0x00, 0x20]) ∧
  (assembleLine ['F', 'E', 'E', 'D', ' ', '3', ',', ' ', '"', 'a', 'b', 'c', '"'] =
    some [0x03, 0x00, 0x00, 0x20, 0x61, 0x62, 0x63]) ∧
  (assembleLine (['F', 'E', 'E', 'D', ' ', '6', '4', ',', ' ', 'x', '"'] ++ List.replicate 128 '0' ++ ['"']) =
    some ([0x40, 0x00, 0x00, 0x20] ++ List.replicate 64 0x00)) ∧
  (assembleLine ['F', 'I', 'N', 'A', 'L'] = some [0x00, 0x00, 0x00, 0x30]) ∧
  (assembleLine ['H', 'E', 'X'] = some [0x00, 0x00, 0x00, 0x40]) ∧
  (assembleLine ['S', 'T', 'A', 'T', 'U', 'S'] = some [0x00, 0x00, 0x00, 0x50]) ∧
  (assembleLine ['.', 'w', 'o', 'r', 'd', ' ', '0', 'x', '0', '0', '0', '0', '0', '0', '0', '0'] =
    some [0x00, 0x00, 0x00, 0x00]) ∧
  (assembleLine ['.', 'w', 'o', 'r', 'd', ' ', '0', 'x', '3', '0', '0', '0', '0', '0', '0', '1'] =
    some [0x01, 0x00, 0x00, 0x30]) ∧
  (assembleLine ['.', 'w', 'o', 'r', 'd', ' ', '0', 'x', 'F', '0', '0', '0', '0', '0', '0', '0'] =
    some [0x00, 0x00, 0x00, 0xF0]) ∧
  ∀ rest : List Byte,
    decode ([0x00, 0x00, 0x00, 0x10] ++ rest) = .command .init rest ∧
    decode ([0x00, 0x00, 0x00, 0x20] ++ rest) = .command (.feed 0 []) rest ∧
    decode ([0x03, 0x00, 0x00, 0x20, 0x61, 0x62, 0x63] ++ rest) = .command (.feed 3 [0x61, 0x62, 0x63]) rest ∧
    decode ([0x40, 0x00, 0x00, 0x20] ++ (List.replicate 64 0x00 ++ rest)) =
      .command (.feed 64 (List.replicate 64 0x00)) rest ∧
    (∀ p : List Byte, p.length = 0x0FFFFFFF →
      encode (.feed 0x0FFFFFFF p) = [0xFF, 0xFF, 0xFF, 0x2F] ++ p ∧
      decode ([0xFF, 0xFF, 0xFF, 0x2F] ++ (p ++ rest)) = .command (.feed 0x0FFFFFFF p) rest) ∧
    decode ([0x00, 0x00, 0x00, 0x30] ++ rest) = .command .final rest ∧
    decode ([0x00, 0x00, 0x00, 0x40] ++ rest) = .command .hex rest ∧
    decode ([0x00, 0x00, 0x00, 0x50] ++ rest) = .command .status rest ∧
    decode ([0x00, 0x00, 0x00, 0x00] ++ rest) = .illegal 0x01 rest ∧
    decode ([0x01, 0x00, 0x00, 0x30] ++ rest) = .illegal 0x02 rest ∧
    decode ([0x00, 0x00, 0x00, 0xF0] ++ rest) = .illegal 0x01 rest

/-- 30_encoding R65: of the 2^32 header values, which are legal and which fault each of the others raises. -/
def Obligations.LegalHeadersAreExactlyThese : Prop :=
  ∀ h : Word,
    (decodeHeader h = .init ↔ h = 0x10000000) ∧
    ((∃ len, decodeHeader h = .feed len) ↔ 0x20000000 ≤ h ∧ h ≤ 0x2FFFFFFF) ∧
    (∀ len : BitVec 28, decodeHeader h = .feed len ↔ h.toNat = 0x20000000 + len.toNat) ∧
    (decodeHeader h = .final ↔ h = 0x30000000) ∧
    (decodeHeader h = .hex ↔ h = 0x40000000) ∧
    (decodeHeader h = .status ↔ h = 0x50000000) ∧
    (decodeHeader h = .illegal 0x01 ↔ h.toNat / 2 ^ 28 = 0 ∨ 6 ≤ h.toNat / 2 ^ 28) ∧
    (decodeHeader h = .illegal 0x02 ↔
      (h.toNat / 2 ^ 28 = 1 ∨ h.toNat / 2 ^ 28 = 3 ∨ h.toNat / 2 ^ 28 = 4 ∨ h.toNat / 2 ^ 28 = 5) ∧
        h.toNat % 2 ^ 28 ≠ 0) ∧
    (∀ code, decodeHeader h = .illegal code → code = 0x01 ∨ code = 0x02)

/-- Decoding and encoding agree, in both directions and for every command: an encoded well-formed command is read back
with every operand and nothing of the bytes after it, and what is read as a command is a well-formed command whose
encoding stood there. -/
def Obligations.DecodeAndEncodeAgree : Prop :=
  (∀ (i : Instr) (rest : List Byte), i.WellFormed → decode (encode i ++ rest) = .command i rest) ∧
  (∀ (bs rest : List Byte) (i : Instr), decode bs = .command i rest → i.WellFormed ∧ bs = encode i ++ rest)

/-- 30_encoding R68: how many bytes of the command channel each command and each illegal header takes. -/
def Obligations.CommandLengths : Prop :=
  (∀ bs rest, decode bs = .command .init rest → bs.length = 4 + rest.length) ∧
  (∀ bs rest len p, decode bs = .command (.feed len p) rest → bs.length = 4 + len.toNat + rest.length) ∧
  (∀ bs rest, decode bs = .command .final rest → bs.length = 4 + rest.length) ∧
  (∀ bs rest, decode bs = .command .hex rest → bs.length = 4 + rest.length) ∧
  (∀ bs rest, decode bs = .command .status rest → bs.length = 4 + rest.length) ∧
  (∀ bs rest code, decode bs = .illegal code rest → bs.length = 4 + rest.length)

/-- A step runs exactly the command at the front of the channel, on the state with that command's bytes read off and
nothing else changed; an illegal header runs as the fault it raises. -/
def Obligations.StepRunsTheCommandRead : Prop :=
  (∀ (s : State) (i : Instr) (rest : List Byte), i.WellFormed → s.cmd = encode i ++ rest →
    step s = exec i { s with cmd := rest }) ∧
  (∀ (s : State) (code : Byte) (rest : List Byte), decode s.cmd = .illegal code rest →
    step s = execIllegal code { s with cmd := rest })

/-- An opcode-table word put on the channel is the command the decoder reads from it, and the very next step runs it. How
a table word becomes channel bytes is the model's choice (log entry 11). -/
def Obligations.TableWordRunsNext : Prop :=
  ∀ (s : State) (w : Nat) (i : Instr), decodeTableWord 32 w = some i → step (s.withFetchWord 32 w) = exec i s

/-- The hold of 20_memory R54: the engine has no step exactly while its command is not whole (fewer than 4 header bytes,
or a FEED header with fewer than `LEN` bytes after it) and no reset comes. That a hold is the outcome `.fault .held`, and
the reset input a field of the state, is the model's choice (log entries 3 and 5). -/
def Obligations.EngineHoldsUntilCommandIsWhole : Prop :=
  ∀ s : State, step s = .fault .held ↔
    s.resets = [] ∧
    (s.cmd.length < 4 ∨
      ∃ h0 h1 h2 h3 p, s.cmd = h0 :: h1 :: h2 :: h3 :: p ∧ opField (le32 h0 h1 h2 h3) = 2 ∧
        p.length < (argField (le32 h0 h1 h2 h3)).toNat)

/-! ## The commands (41_streaming_hasher, 42_digest_formatter) -/

/-- INIT, 41_streaming_hasher R81: its encoding, its effect in ABSORBING and FINALIZED (nothing but the five listed
elements changes), the discard in FAULTED, the fault of a nonzero ARG, that it changes nothing just after reset, and
that STATUS reads 0 after it. -/
def Obligations.InitStartsMessage : Prop :=
  encode .init = [0x00, 0x00, 0x00, 0x10] ∧
  (∀ s : State, s.fault = 0x00 →
    exec .init s = .next { s with
      acc := ⟨0x67452301, 0xEFCDAB89, 0x98BADCFE, 0x10325476⟩
      countLo := 0
      countHi := 0
      bufCnt := 0
      fin := false }) ∧
  (∀ s : State, s.fault ≠ 0x00 → exec .init s = .next s) ∧
  (∀ (arg : BitVec 28) (rest : List Byte), arg ≠ 0 →
    decode (bytesLe32 (0x10000000 ||| arg.setWidth 32) ++ rest) = .illegal 0x02 rest) ∧
  exec .init State.reset = .next State.reset ∧
  (∀ s t u : State, s.fault = 0x00 → exec .init s = .next t → exec .status t = .next u →
    u.resp = s.resp ++ [0x00, 0x00, 0x00, 0x00])

/-- CountAdd, 41_streaming_hasher R83: the two halves with the carry, that nothing else is written, and that together
they are the 64-bit sum. -/
def Obligations.CountAddIsTheSixtyFourBitSum : Prop :=
  ∀ (len : BitVec 28) (s : State),
    (lenBits len).toNat = 8 * len.toNat ∧
    countAdd len s = { s with
      countLo := s.countLo + lenBits len
      countHi := s.countHi + (if 2 ^ 32 ≤ s.countLo.toNat + 8 * len.toNat then 1 else 0) } ∧
    (countAdd len s).count = (s.count + 8 * len.toNat) % 2 ^ 64

/-- FEED completes in ABSORBING, for every run, and what it leaves in every element: the count, the accumulators after
the whole blocks of the staged bytes followed by the run, the leftover staged, and nothing else changed. -/
def Obligations.FeedAbsorbsTheRun : Prop :=
  ∀ (s : State) (len : BitVec 28) (p : List Byte),
    (Instr.feed len p).WellFormed → s.buf.wf = true → s.fault = 0x00 → s.fin = false →
    ∃ t, exec (.feed len p) s = .next t ∧
      t.count = (s.count + 8 * len.toNat) % 2 ^ 64 ∧
      t.acc = transformAll s.acc (s.staged ++ p) ∧
      t.bufCnt.toNat = (s.bufCnt.toNat + p.length) % 64 ∧
      t.staged = leftover (s.staged ++ p) ∧
      t.buf.wf = true ∧
      t.fin = false ∧ t.fault = 0x00 ∧ t.digest = s.digest ∧
      t.cmd = s.cmd ∧ t.resp = s.resp ∧ t.resets = s.resets

/-- FEED of the empty run changes no state in ABSORBING; in FINALIZED it faults, as every FEED does there. -/
def Obligations.EmptyFeedChangesNothing : Prop :=
  (∀ s : State, s.fault = 0x00 → s.fin = false → exec (.feed 0 []) s = .next s) ∧
  (∀ s : State, s.fault = 0x00 → s.fin = true → exec (.feed 0 []) s = .next { s with fault := 0x03 })

/-- The frame of FEED: registers, and every byte of the staging buffer outside the bytes it stores to. The stored
offsets are those of Absorb: from `BUFCNT` on when the run fits; from `BUFCNT` to 63, and then the tail from 0 on, when
the run fills the staged block; the tail from 0 on when nothing was staged.That the offsets from the tail to 63 keep their
bytes while whole blocks pass is the model's choice (log entry 10): 41_streaming_hasher R84 lets a model copy those blocks
through `BUF`, and calls the bytes above `BUFCNT` unspecified. -/
def Obligations.FeedFrame : Prop :=
  ∀ (s t : State) (len : BitVec 28) (p : List Byte), exec (.feed len p) s = .next t →
    t.fin = s.fin ∧ t.digest = s.digest ∧ t.cmd = s.cmd ∧ t.resp = s.resp ∧ t.resets = s.resets ∧
    (s.fin = false → t.fault = s.fault) ∧
    (s.fault ≠ 0x00 ∨ s.fin = true → t = { s with fault := t.fault }) ∧
    (s.fault = 0x00 → s.fin = false → ∀ a : Nat,
      (if 0 < s.bufCnt.toNat then
        if p.length < s.need then ¬(s.bufCnt.toNat ≤ a ∧ a < s.bufCnt.toNat + p.length)
        else ¬(s.bufCnt.toNat ≤ a ∧ a < 64) ∧ ¬a < (p.length - s.need) % 64
      else ¬a < p.length % 64) →
      t.buf.read a = s.buf.read a)

/-- FINAL completes whenever the engine is not FAULTED. FINALIZED: it emits the digest and changes nothing. ABSORBING:
the accumulators after the whole blocks of the staged bytes followed by the padding, the digest that is their
serialization, 16 response bytes, the count kept, the buffer left with the last padded block. -/
def Obligations.FinalFinalizesAndReturnsDigest : Prop :=
  (∀ s : State, s.fault = 0x00 → s.fin = true →
    exec .final s = .next { s with resp := s.resp ++ s.digest.toList }) ∧
  (∀ s : State, s.buf.wf = true → s.fault = 0x00 → s.fin = false →
    ∃ t, exec .final s = .next t ∧
      t.acc = transformAll s.acc (s.staged ++ padding s.bufCnt.toNat s.countLo s.countHi) ∧
      t.digest = serialize t.acc ∧
      t.resp = s.resp ++ t.digest.toList ∧
      t.fin = true ∧ t.bufCnt = 0 ∧ t.countLo = s.countLo ∧ t.countHi = s.countHi ∧
      t.buf.bytes 64 = (s.staged ++ padding s.bufCnt.toNat s.countLo s.countHi).drop
        (if s.bufCnt.toNat ≤ 55 then 0 else 64) ∧
      t.buf.wf = true ∧
      t.fault = 0x00 ∧ t.cmd = s.cmd ∧ t.resets = s.resets) ∧
  (∀ s : State, s.fault ≠ 0x00 → exec .final s = .next s)

/-- 41_streaming_hasher R88: on the staged bytes followed by their padding, Finalize runs one transform when
`BUFCNT <= 55`, where that list is one block, and two when `BUFCNT >= 56`, where it is two blocks; `BUFCNT` after INIT or
reset and any commands that feed or report is the number of fed bytes modulo 64; the padded length is a multiple of 64
with the least number of zeros, and the boundary cases. -/
def Obligations.FinalizeRunsOneOrTwoTransforms : Prop :=
  (∀ s : State, s.buf.wf = true → s.bufCnt.toNat ≤ 55 →
    (s.staged ++ padding s.bufCnt.toNat s.countLo s.countHi).length = 64 ∧
    (finalize s).acc = blockTransform s.acc (s.staged ++ padding s.bufCnt.toNat s.countLo s.countHi)) ∧
  (∀ s : State, s.buf.wf = true → 56 ≤ s.bufCnt.toNat →
    (s.staged ++ padding s.bufCnt.toNat s.countLo s.countHi).length = 128 ∧
    (finalize s).acc =
      blockTransform
        (blockTransform s.acc ((s.staged ++ padding s.bufCnt.toNat s.countLo s.countHi).take 64))
        ((s.staged ++ padding s.bufCnt.toNat s.countLo s.countHi).drop 64)) ∧
  (∀ (s u t : State) (is : List Instr), s.buf.wf = true → s.fault = 0x00 →
    (u = State.reset ∨ exec .init s = .next u) →
    (∀ i ∈ is, i.WellFormed ∧ (i = .status ∨ ∃ len p, i = .feed len p)) →
    execAll is u = .next t → t.bufCnt.toNat = (is.flatMap Instr.payload).length % 64) ∧
  (∀ m : List Byte, (paddedMessage m).length = m.length + 1 + zeroPad m.length + 8) ∧
  (∀ n : Nat, (n + 1 + zeroPad n + 8) % 64 = 0 ∧ zeroPad n ≤ 63 ∧
    ∀ z, (n + 1 + z + 8) % 64 = 0 → zeroPad n ≤ z) ∧
  (∀ n : Nat, (n % 64 = 55 → zeroPad n = 0) ∧ (n % 64 = 56 → zeroPad n = 63) ∧
    (n % 64 = 63 → zeroPad n = 56) ∧ (n % 64 = 0 → zeroPad n = 55))

/-- Once FINAL or HEX has executed, another FINAL or HEX returns the same digest, or its rendering, and changes nothing
but the response channel. -/
def Obligations.FinalAndHexAreIdempotent : Prop :=
  ∀ s t : State, s.fault = 0x00 → (exec .final s = .next t ∨ exec .hex s = .next t) →
    exec .final t = .next { t with resp := t.resp ++ t.digest.toList } ∧
    exec .hex t = .next { t with resp := t.resp ++ hexDigest t.digest }

/-- HEX completes whenever the engine is not FAULTED, with the state FINAL leaves but for the response, which is the
rendering of the digest FINAL returns; in FAULTED it is discarded. -/
def Obligations.HexFinalizesLikeFinal : Prop :=
  (∀ s : State, s.fault = 0x00 →
    ∃ t u, exec .hex s = .next t ∧ exec .final s = .next u ∧
      u.resp = s.resp ++ u.digest.toList ∧
      t = { u with resp := s.resp ++ hexDigest u.digest }) ∧
  (∀ s : State, s.fault ≠ 0x00 → exec .hex s = .next s)

/-- 42_digest_formatter R103: every HEX response is 32 lowercase hex digits, two for each digest byte with the high
nibble first, and it is the rendering of the 16 bytes that FINAL returns. -/
def Obligations.HexResponseIsLowercaseHex : Prop :=
  ∀ s : State, s.fault = 0x00 →
    ∃ (t u : State) (r : List Byte) (d : Vector Byte 16), exec .hex s = .next t ∧ exec .final s = .next u ∧
      t.resp = s.resp ++ r ∧ u.resp = s.resp ++ d.toList ∧
      r = hexDigest d ∧ t.digest = d ∧ u.digest = d ∧
      r.length = 32 ∧
      (∀ b ∈ r, (0x30 ≤ b ∧ b ≤ 0x39) ∨ (0x61 ≤ b ∧ b ≤ 0x66)) ∧
      (∀ (k : Nat) (hk : k < 16),
        r[2 * k]? = some (hexChar (d[k].extractLsb' 4 4)) ∧
        r[2 * k + 1]? = some (hexChar (d[k].extractLsb' 0 4)))

/-- STATUS, 41_streaming_hasher R90 with the view of 10_state R30: it completes in every lifecycle state, writes
nothing, and returns the four little-endian bytes of the word with these fields; with a nonzero ARG its header is a
ReservedArgument, which in FAULTED is discarded and returns nothing. -/
def Obligations.StatusReportsTheStatusWord : Prop :=
  encode .status = [0x00, 0x00, 0x00, 0x50] ∧
  (∀ s : State, exec .status s = .next { s with resp := s.resp ++ bytesLe32 s.statusWord }) ∧
  (∀ s : State,
    s.statusWord.extractLsb' 0 8 = s.fault ∧
    s.statusWord.getLsbD 8 = s.fin ∧
    s.statusWord.extractLsb' 9 7 = 0 ∧
    s.statusWord.extractLsb' 16 6 = s.bufCnt ∧
    s.statusWord.extractLsb' 22 10 = 0) ∧
  (∀ (arg : BitVec 28) (rest : List Byte), arg ≠ 0 →
    decode (bytesLe32 (0x50000000 ||| arg.setWidth 32) ++ rest) = .illegal 0x02 rest) ∧
  (∀ (s : State) (arg : BitVec 28) (rest : List Byte), arg ≠ 0 → s.fault ≠ 0x00 →
    s.cmd = bytesLe32 (0x50000000 ||| arg.setWidth 32) ++ rest → step s = .next { s with cmd := rest }) ∧
  State.reset.statusWord = 0x00000000 ∧
  (∀ (p : List Byte) (t u v : State), p.length = 65 → exec (.feed 65 p) State.reset = .next t →
    exec .status t = .next u → u.resp = [0x00, 0x00, 0x01, 0x00] ∧
    (exec .final u = .next v → ∃ x, exec .status v = .next x ∧ x.resp = v.resp ++ [0x00, 0x01, 0x00, 0x00]))

/-- 30_encoding R69: the response length of every command, executed, discarded or faulting, and of an illegal header. -/
def Obligations.ResponseLengths : Prop :=
  (∀ (s t : State), exec .init s = .next t → t.resp = s.resp) ∧
  (∀ (s t : State) (len : BitVec 28) (p : List Byte), exec (.feed len p) s = .next t → t.resp = s.resp) ∧
  (∀ s t : State, exec .final s = .next t → s.fault = 0x00 →
    t.resp = s.resp ++ t.digest.toList ∧ t.resp.length = s.resp.length + 16) ∧
  (∀ s t : State, exec .hex s = .next t → s.fault = 0x00 →
    t.resp = s.resp ++ hexDigest t.digest ∧ t.resp.length = s.resp.length + 32) ∧
  (∀ s t : State, exec .status s = .next t →
    t.resp = s.resp ++ bytesLe32 s.statusWord ∧ t.resp.length = s.resp.length + 4) ∧
  (∀ s t : State, s.fault ≠ 0x00 → (exec .final s = .next t ∨ exec .hex s = .next t) → t.resp = s.resp) ∧
  (∀ (s t : State) (code : Byte), execIllegal code s = .next t → t.resp = s.resp)

/-- 41_streaming_hasher R91: outside FAULTED every legal command but FEED in FINALIZED completes without a fault, and
that FEED faults. -/
def Obligations.LegalCommandsDoNotFault : Prop :=
  ∀ (s : State) (i : Instr), s.fault = 0x00 →
    ((s.fin = true → ∀ len p, i ≠ .feed len p) → ∃ t, exec i s = .next t ∧ t.fault = 0x00) ∧
    (∀ len p, s.fin = true → i = .feed len p → ∃ t, exec i s = .next t ∧ t.fault ≠ 0x00)

/-! ## Faults (60_exceptions) -/

/-- 60_exceptions R152: a reserved OP raises IllegalOpcode whatever its ARG; 4 bytes are read and nothing else
changes. -/
def Obligations.ReservedOpcodeRaisesIllegalOpcode : Prop :=
  (∀ (s : State) (h0 h1 h2 h3 : Byte) (rest : List Byte), s.fault = 0x00 → s.cmd = h0 :: h1 :: h2 :: h3 :: rest →
    (opField (le32 h0 h1 h2 h3) = 0 ∨ 6 ≤ (opField (le32 h0 h1 h2 h3)).toNat) →
    step s = .next { s with cmd := rest, fault := 0x01 }) ∧
  (∀ (s t : State) (rest : List Byte), s.lifecycle = .absorbing → s.cmd = 0x00 :: 0x00 :: 0x00 :: 0xF0 :: rest →
    step s = .next t → t.fault = 0x01)

/-- 60_exceptions R153: a nonzero ARG on INIT, FINAL, HEX or STATUS raises ReservedArgument; 4 bytes are read and
nothing else changes, so nothing is finalized. -/
def Obligations.NonzeroArgRaisesReservedArgument : Prop :=
  (∀ (s : State) (h0 h1 h2 h3 : Byte) (rest : List Byte), s.fault = 0x00 → s.cmd = h0 :: h1 :: h2 :: h3 :: rest →
    opField (le32 h0 h1 h2 h3) ∈ [1, 3, 4, 5] → argField (le32 h0 h1 h2 h3) ≠ 0 →
    step s = .next { s with cmd := rest, fault := 0x02 }) ∧
  (∀ (s t : State) (rest : List Byte), s.lifecycle = .absorbing → s.cmd = 0x01 :: 0x00 :: 0x00 :: 0x30 :: rest →
    step s = .next t → t.fault = 0x02 ∧ t.fin = false)

/-- 60_exceptions R154: a FEED of any length in FINALIZED raises FeedAfterFinal; its payload is read off the channel
and discarded, and nothing else changes. -/
def Obligations.FeedAfterFinalFaults : Prop :=
  (∀ (s : State) (len : BitVec 28) (p rest : List Byte), (Instr.feed len p).WellFormed → s.fault = 0x00 → s.fin = true →
    s.cmd = encode (.feed len p) ++ rest → step s = .next { s with cmd := rest, fault := 0x03 }) ∧
  (∀ (s t u : State), s.fault = 0x00 → exec .final s = .next t → exec (.feed 1 [0x78]) t = .next u →
    u.fault = 0x03 ∧ u.digest = t.digest)

/-- 60_exceptions R155: a command raises at most one fault, and which one it is when the engine is not FAULTED. -/
def Obligations.FaultPriority : Prop :=
  (∀ (s t : State) (h0 h1 h2 h3 : Byte) (p : List Byte), s.fault = 0x00 → s.cmd = h0 :: h1 :: h2 :: h3 :: p →
    decode s.cmd ≠ .incomplete → step s = .next t →
    t.fault =
      if opField (le32 h0 h1 h2 h3) = 0 ∨ 6 ≤ (opField (le32 h0 h1 h2 h3)).toNat then 0x01
      else if opField (le32 h0 h1 h2 h3) ≠ 2 ∧ argField (le32 h0 h1 h2 h3) ≠ 0 then 0x02
      else if opField (le32 h0 h1 h2 h3) = 2 ∧ s.fin = true then 0x03
      else 0x00) ∧
  (∀ rest : List Byte, decode ([0x01, 0x00, 0x00, 0x60] ++ rest) = .illegal 0x01 rest)

/-- 60_exceptions R156: a step that raises a fault does so from a state without one, and changes nothing else but that
the command's bytes have been read; so a fault keeps the first code, and emits nothing. -/
def Obligations.FaultsArePrecise : Prop :=
  (∀ s t : State, step s = .next t → t.fault ≠ 0x00 → t.fault ≠ s.fault →
    s.fault = 0x00 ∧ t = { s with cmd := t.cmd, fault := t.fault } ∧
    ((∃ code, decode s.cmd = .illegal code t.cmd ∧ t.fault = code) ∨
      (∃ len p, decode s.cmd = .command (.feed len p) t.cmd ∧ s.fin = true ∧ t.fault = 0x03))) ∧
  (∀ (s : State) (code : Byte),
    raiseFault code s = if s.fault = 0x00 then { s with fault := code } else s)

/-- 60_exceptions R157: while `FAULT != 0` every command is still read with its payload, only STATUS executes, and the
rest change nothing and return nothing. -/
def Obligations.FaultedExecutesOnlyStatus : Prop :=
  ∀ s : State, s.fault ≠ 0x00 →
    (∀ i rest, i ≠ .status → decode s.cmd = .command i rest → step s = .next { s with cmd := rest }) ∧
    (∀ code rest, decode s.cmd = .illegal code rest → step s = .next { s with cmd := rest }) ∧
    (∀ rest, decode s.cmd = .command .status rest →
      step s = .next { s with cmd := rest, resp := s.resp ++ bytesLe32 s.statusWord })

/-- Only reset sets `FAULT` back to 0; any other step in FAULTED keeps the code (60_exceptions R158). The reset input as
a field, what reset leaves in `BUF` and `DIGEST`, and that responses already given stay are the model's choices (log
entries 1, 2, 5 and 6). -/
def Obligations.OnlyResetClearsFault : Prop :=
  ∀ s t : State, s.fault ≠ 0x00 → step s = .next t →
    t.fault = s.fault ∨
    (t.fault = 0x00 ∧ ∃ sent later, s.resets = sent :: later ∧
      t = { State.reset with cmd := sent, resp := s.resp, resets := later })

/-! ## Reset (10_state, 70_reset_and_hazards) -/

/-- The values after reset that 10_state R35 gives, and the same table's column for INIT. (`BUF` and `DIGEST` hold any
value after reset: nothing is said of them. The fields `cmd`, `resp`, `resets` are the channels, no elements of the
table.) -/
def Obligations.ResetAndInitValues : Prop :=
  State.reset.acc = ⟨0x67452301, 0xEFCDAB89, 0x98BADCFE, 0x10325476⟩ ∧
  State.reset.countLo = 0 ∧ State.reset.countHi = 0 ∧ State.reset.bufCnt = 0 ∧ State.reset.fin = false ∧
  State.reset.fault = 0x00 ∧
  (∀ s t : State, s.fault = 0x00 → exec .init s = .next t →
    t.acc = ⟨0x67452301, 0xEFCDAB89, 0x98BADCFE, 0x10325476⟩ ∧
    t.countLo = 0 ∧ t.countHi = 0 ∧ t.bufCnt = 0 ∧ t.buf = s.buf ∧ t.fin = false ∧ t.digest = s.digest ∧
    t.fault = s.fault)

/-- Reset ends a hold, from any state (70_reset_and_hazards R170, R171): every element takes its reset value, the bytes
of the partly received command are gone, the next byte on the channel is the first the host sends after the reset, and
responses already given stay. The reset input and the response channel as fields are the model's choice (log entries 5
and 6). -/
def Obligations.ResetEndsTheHold : Prop :=
  ∀ (s : State) (sent : List Byte) (later : List (List Byte)), decode s.cmd = .incomplete → s.resets = sent :: later →
    ∃ t, step s = .next t ∧
      t.acc = ⟨0x67452301, 0xEFCDAB89, 0x98BADCFE, 0x10325476⟩ ∧ t.countLo = 0 ∧ t.countHi = 0 ∧ t.bufCnt = 0 ∧
      t.fin = false ∧ t.fault = 0x00 ∧ t.lifecycle = .absorbing ∧
      t.cmd = sent ∧ t.resets = later ∧ t.resp = s.resp

/-- Reset and INIT have the same effect on the hashing state, and differ in the three ways of 70_reset_and_hazards R172:
reset clears `FAULT` and INIT keeps it; reset executes in FAULTED and INIT is discarded there; reset ends the hold on a
partly received command and drops its bytes, and where one is held no command, INIT or other, is executed before reset.
(BUF and DIGEST, which INIT keeps and reset leaves unspecified, are no part of the hashing state, and nothing is said of
them.) The reset input and the channel as fields, and the outcome of a hold, are the model's choices (log entries 3, 4
and 5). -/
def Obligations.ResetAndInitAgreeOnTheHashingState : Prop :=
  (∀ (s t : State) (sent : List Byte) (later : List (List Byte)), s.fault = 0x00 → exec .init s = .next t →
    (s.afterReset sent later).acc = t.acc ∧ (s.afterReset sent later).countLo = t.countLo ∧
    (s.afterReset sent later).countHi = t.countHi ∧ (s.afterReset sent later).bufCnt = t.bufCnt ∧
    (s.afterReset sent later).fin = t.fin) ∧
  (∀ s t : State, exec .init s = .next t → t.fault = s.fault) ∧
  (∀ s : State, s.fault ≠ 0x00 → exec .init s = .next s) ∧
  (∀ (s : State) (sent : List Byte) (later : List (List Byte)), decode s.cmd = .incomplete → s.resets = sent :: later →
    step s = .next (s.afterReset sent later) ∧ (s.afterReset sent later).fault = 0x00 ∧
    (s.afterReset sent later).cmd = sent) ∧
  (∀ s : State, decode s.cmd = .incomplete → s.resets = [] → step s = .fault .held)

/-- A reset that is to come changes nothing before the engine holds: a whole command, or an illegal header, is executed
first, it leaves the resets as they were, and it does the same to everything else whatever resets are to come. This is how
the model orders its reset input (log entry 5), under the rule that reset comes only between commands or in a hold
(70_reset_and_hazards R171). -/
def Obligations.ResetWaitsForTheCommand : Prop :=
  ∀ s t : State, decode s.cmd ≠ .incomplete → step s = .next t →
    t.resets = s.resets ∧
    ∀ later : List (List Byte), step { s with resets := later } = .next { t with resets := later }

/-- The lifecycle of 10_state R34: which commands move the engine between its three states. -/
def Obligations.LifecycleMoves : Prop :=
  ∀ (s t : State) (i : Instr), exec i s = .next t →
    (s.lifecycle = .faulted → t.lifecycle = .faulted) ∧
    (s.lifecycle = .absorbing →
      t.lifecycle = if i = .final ∨ i = .hex then .finalized else .absorbing) ∧
    (s.lifecycle = .finalized →
      (i = .init → t.lifecycle = .absorbing) ∧
      (∀ len p, i = .feed len p → t.lifecycle = .faulted) ∧
      (i = .final ∨ i = .hex ∨ i = .status → t.lifecycle = .finalized))

/-! ## The block transform and the digest (43_block_transform, 42_digest_formatter) -/

/-- The mixing functions of 43_block_transform R122 to R125: the formulas, the bitwise reading of F and G as selects,
and the examples. -/
def Obligations.MixingFunctions : Prop :=
  (∀ x y z : Word,
    mixF x y z = (x &&& y) ||| (~~~x &&& z) ∧
    mixG x y z = (z &&& x) ||| (~~~z &&& y) ∧ mixG x y z = mixF z x y ∧
    mixH x y z = x ^^^ y ^^^ z ∧
    mixI x y z = y ^^^ (x ||| ~~~z)) ∧
  (∀ (x y z : Word) (i : Nat), i < 32 →
    (mixF x y z).getLsbD i = (if x.getLsbD i then y.getLsbD i else z.getLsbD i) ∧
    (mixG x y z).getLsbD i = (if z.getLsbD i then x.getLsbD i else y.getLsbD i)) ∧
  mixF 0xF0F0F0F0 0xFF00FF00 0x0FF00FF0 = 0xFF00FF00 ∧
  mixG 0xF0F0F0F0 0xFF00FF00 0x0FF00FF0 = 0xF0F0F0F0 ∧
  mixH 0x12345678 0x9ABCDEF0 0x0FEDCBA9 = 0x87654321 ∧
  mixI 0 0 0 = 0xFFFFFFFF ∧
  mixI 0xFFFFFFFF 0xFFFFFFFF 0xFFFFFFFF = 0

/-- The round tables in closed form (43_block_transform R128, R129): the shift amounts cycle through four per pass and
lie between 4 and 23; the word indices follow their formulas, and each pass uses each word once. -/
def Obligations.TablesInClosedForm : Prop :=
  tableT.length = 64 ∧ tableS.length = 64 ∧ tableK.length = 64 ∧
  (∀ i < 64, tableS.getD i 0 =
    ([[7, 12, 17, 22], [5, 9, 14, 20], [4, 11, 16, 23], [6, 10, 15, 21]].getD (i / 16) []).getD (i % 4) 0) ∧
  (∀ i < 64, 4 ≤ tableS.getD i 0 ∧ tableS.getD i 0 ≤ 23) ∧
  (∀ i < 64, tableK.getD i 0 =
    if i < 16 then i else if i < 32 then (1 + 5 * i) % 16 else if i < 48 then (5 + 3 * i) % 16 else 7 * i % 16) ∧
  (∀ q < 4, ∀ j < 16, ((tableK.drop (16 * q)).take 16).count j = 1)

/-- 43_block_transform R132: `rotl32` by every amount the engine uses is the rotation of the word's bits, and the
examples. -/
def Obligations.RotationMovesBitsLeft : Prop :=
  (∀ (x : Word) (s i : Nat), 4 ≤ s → s ≤ 23 → i < 32 → (rotl32 x s).getLsbD ((i + s) % 32) = x.getLsbD i) ∧
  (∀ i < 64, 4 ≤ tableS.getD i 0 ∧ tableS.getD i 0 ≤ 23) ∧
  rotl32 0x80000000 1 = 0x00000001 ∧ rotl32 0x12345678 4 = 0x23456781 ∧ rotl32 0x87654321 16 = 0x43218765 ∧
  (∀ s : Nat, 1 ≤ s → s ≤ 31 → rotl32 0xFFFFFFFF s = 0xFFFFFFFF)

/-- 43_block_transform R131: the block transform is the loop with rotating roles, it computes what the named rounds of
R130 compute, and its example with the two of R134. -/
def Obligations.RotatingRoundsEqualNamedRounds : Prop :=
  (∀ (acc : Acc) (blk : List Byte), ∃ w : Nat → Acc,
    w 0 = acc ∧
    (∀ i < 64, w (i + 1) =
      ⟨(w i).d,
       (w i).b + rotl32 ((w i).a + mix i (w i).b (w i).c (w i).d + blockWord blk (tableK.getD i 0) + tableT.getD i 0)
        (tableS.getD i 0),
       (w i).b, (w i).c⟩) ∧
    blockTransform acc blk = ⟨acc.a + (w 64).a, acc.b + (w 64).b, acc.c + (w 64).c, acc.d + (w 64).d⟩) ∧
  (∀ (acc : Acc) (blk : List Byte), blockTransform acc blk = blockTransformNamed acc blk) ∧
  blockTransform ⟨0x67452301, 0xEFCDAB89, 0x98BADCFE, 0x10325476⟩ (0x80 :: List.replicate 63 0x00) =
    ⟨0xD98C1DD4, 0x04B2008F, 0x980980E9, 0x7E42F8EC⟩ ∧
  blockTransform ⟨0, 0, 0, 0⟩ (List.replicate 64 0x00) = ⟨0xF7CD1C97, 0xA5483681, 0x2B68D832, 0xF90CA639⟩ ∧
  blockTransform ⟨0xFFFFFFFF, 0xFFFFFFFF, 0xFFFFFFFF, 0xFFFFFFFF⟩ (List.replicate 64 0xFF) =
    ⟨0x6CBA9129, 0x29FFD12A, 0x8B9BB7D3, 0xA9A0A3C1⟩

/-- 42_digest_formatter R100: `DIGEST[4*i + j]` is byte `j` of `ACC[i]`, `DIGEST` changes only where a FINAL or HEX
finalizes, and the example. -/
def Obligations.SerializeIsLittleEndian : Prop :=
  (∀ (acc : Acc) (i j : Nat) (hi : i < 4) (hj : j < 4),
    (serialize acc)[4 * i + j] = ([acc.a, acc.b, acc.c, acc.d][i]).extractLsb' (8 * j) 8) ∧
  (∀ (s t : State) (i : Instr), exec i s = .next t →
    t.digest = s.digest ∨
    ((i = .final ∨ i = .hex) ∧ s.fin = false ∧ t.fin = true ∧ t.digest = serialize t.acc)) ∧
  (serialize ⟨0xD98C1DD4, 0x04B2008F, 0x980980E9, 0x7E42F8EC⟩).toList =
    [0xD4, 0x1D, 0x8C, 0xD9, 0x8F, 0x00, 0xB2, 0x04, 0xE9, 0x80, 0x09, 0x98, 0xEC, 0xF8, 0x42, 0x7E]

/-- 42_digest_formatter R101: HexChar, HexByte and HexDigest. -/
def Obligations.HexCharactersAreAscii : Prop :=
  (∀ v : BitVec 4, (hexChar v).toNat = if v.toNat ≤ 9 then 0x30 + v.toNat else 0x61 + (v.toNat - 10)) ∧
  (∀ b : Byte, hexByte b = [hexChar (b.extractLsb' 4 4), hexChar (b.extractLsb' 0 4)]) ∧
  (∀ d : Vector Byte 16, hexDigest d = (d.toList.map hexByte).flatten)

/-! ## The staging buffer (20_memory) -/

/-- 20_memory R41: one-byte and four-byte accesses of the staging buffer: what a read after a write gives, inside the
buffer and for every buffer in its canonical form, and that a write leaves every other offset alone. -/
def Obligations.StagingBufferAccesses : Prop :=
  (∀ (m : Memory) (off a : Nat) (v : Byte), m.wf = true → off < 64 →
    (m.write off v).wf = true ∧ (m.write off v).read a = if a = off then v else m.read a) ∧
  (∀ (m : Memory) (off : Nat),
    m.read4 off = le32 (m.read off) (m.read (off + 1)) (m.read (off + 2)) (m.read (off + 3))) ∧
  (∀ (m : Memory) (off a : Nat) (v : Word), m.wf = true → off + 4 ≤ 64 →
    (m.write4 off v).wf = true ∧
    (m.write4 off v).read a =
      if a = off then v.extractLsb' 0 8
      else if a = off + 1 then v.extractLsb' 8 8
      else if a = off + 2 then v.extractLsb' 16 8
      else if a = off + 3 then v.extractLsb' 24 8
      else m.read a) ∧
  (∀ (m : Memory) (off : Nat) (v : Word), m.wf = true → off + 4 ≤ 64 → (m.write4 off v).read4 off = v)

/-- Two staging buffers in canonical form that read the same at every offset are the same data. -/
def Obligations.EqualBuffersAreEqualData : Prop :=
  ∀ m m' : Memory, m.wf = true → m'.wf = true → (∀ a < 64, m.read a = m'.read a) → m = m'

/-! ## Whole-machine rules -/

/-- The invariant holds at reset. -/
def Obligations.InvariantHoldsAtReset : Prop := State.reset.Inv

/-- Every step keeps the invariant, from every state that has it: the staging buffer stays canonical and inside its 64
offsets, `COUNT_LO[2:0]` stays 0, `BUFCNT` follows the count while `FIN = 0`, after Finalize `BUFCNT` is 0 and `DIGEST`
is the serialization of `ACC`, and no code above 3 is produced. -/
def Obligations.StepKeepsInvariant : Prop :=
  ∀ s t : State, s.Inv → step s = .next t → t.Inv

/-- 10_state R36: no response and no later state depends on an unspecified byte. Two states that agree but in
`BUF[BUFCNT..64)`, and in `DIGEST` while `FIN = 0`, answer alike, and their next states agree in the same sense. -/
def Obligations.UnreadBytesAreUnobservable : Prop :=
  ∀ s t : State, s.buf.wf = true → t.buf.wf = true → s.SameButUnread t → SameAnswer (step s) (step t)

/-- Every command terminates, and which block transforms it runs (70_reset_and_hazards R176): an executed FEED those of
the whole blocks of the staged bytes followed by its run, an executed FINAL or HEX that finalizes those of the one or two
blocks of the staged bytes followed by their padding, and INIT, STATUS, every command that faults or is discarded, and a
FINAL or HEX in FINALIZED, none. A step fails to answer a next state only where the command is not whole and no reset
comes; that this is the outcome `.fault .held`, and the reset input a field, is the model's choice (log entries 3 and
5). -/
def Obligations.CommandsTerminateWithinTheirTransforms : Prop :=
  (∀ (i : Instr) (s : State), ∃ t, exec i s = .next t) ∧
  (∀ (s t : State) (len : BitVec 28) (p : List Byte), s.buf.wf = true → s.fault = 0x00 → s.fin = false →
    exec (.feed len p) s = .next t →
    t.acc = (wholeBlocks (s.staged ++ p)).foldl blockTransform s.acc ∧
    (wholeBlocks (s.staged ++ p)).length ≤ (s.bufCnt.toNat + p.length) / 64 ∧
    ∀ b ∈ wholeBlocks (s.staged ++ p), b.length = 64) ∧
  (∀ (s t : State) (len : BitVec 28) (p : List Byte), exec (.feed len p) s = .next t →
    (s.fault ≠ 0x00 ∨ s.fin = true) → t.acc = s.acc) ∧
  (∀ s t : State, s.buf.wf = true → s.fault = 0x00 → s.fin = false →
    (exec .final s = .next t ∨ exec .hex s = .next t) →
    t.acc = (wholeBlocks (s.staged ++ padding s.bufCnt.toNat s.countLo s.countHi)).foldl blockTransform s.acc ∧
    (wholeBlocks (s.staged ++ padding s.bufCnt.toNat s.countLo s.countHi)).length ≤ 2 ∧
    ∀ b ∈ wholeBlocks (s.staged ++ padding s.bufCnt.toNat s.countLo s.countHi), b.length = 64) ∧
  (∀ s t : State, (exec .final s = .next t ∨ exec .hex s = .next t) →
    (s.fault ≠ 0x00 ∨ s.fin = true) → t.acc = s.acc) ∧
  (∀ s t : State, exec .status s = .next t → t.acc = s.acc) ∧
  (∀ s t : State, exec .init s = .next t → t.acc = if s.fault = 0x00 then initialAcc else s.acc) ∧
  (∀ (s t : State) (code : Byte), execIllegal code s = .next t → t.acc = s.acc) ∧
  (∀ s : State, (∃ t, step s = .next t) ∨
    (step s = .fault .held ∧ decode s.cmd = .incomplete ∧ s.resets = []))

/-- Responses only grow: what the engine has put on the response channel stays there, in order (20_memory R43). That the
host's reading takes nothing off the field, and that reset keeps it, is the model's choice (log entry 6). -/
def Obligations.ResponsesOnlyGrow : Prop :=
  ∀ s t : State, step s = .next t → ∃ r, t.resp = s.resp ++ r

/-- A host that keeps the first two duties of 70_reset_and_hazards R175 never meets a hold or a fault: a whole legal
command that is no FEED of a finalized message makes a safe step. -/
def Obligations.WellDrivenStepsAreSafe : Prop :=
  ∀ s : State, ¬s.Faulted → s.WellDriven → SafeStep s

/-- 41_streaming_hasher R85, chunking invariance: from an ABSORBING state, feeding the runs one after the other and
feeding their concatenation at once leave the same accumulators, count and staged bytes; in both cases the block
transforms run on the consecutive blocks of the fed bytes. -/
def Obligations.ChunkingInvariance : Prop :=
  ∀ (s : State) (runs : List (List Byte)), s.buf.wf = true → s.fault = 0x00 → s.fin = false →
    (∀ r ∈ runs, r.length ≤ 0x0FFFFFFF) → runs.flatten.length ≤ 0x0FFFFFFF →
    ∃ t u, execAll (runs.map feedOf) s = .next t ∧ exec (feedOf runs.flatten) s = .next u ∧
      t.acc = u.acc ∧ t.countLo = u.countLo ∧ t.countHi = u.countHi ∧ t.bufCnt = u.bufCnt ∧ t.staged = u.staged ∧
      t.acc = transformAll s.acc (s.staged ++ runs.flatten)

/-- INIT, and reset, leave the engine holding the empty message. -/
def Obligations.FreshEngineHoldsTheEmptyMessage : Prop :=
  State.reset.Holds [] ∧
  (∀ s : State, s.fault = 0x00 → ∃ t, exec .init s = .next t ∧ t.Holds [])

/-- FEED appends its run to the message the engine holds. -/
def Obligations.FeedAppendsToTheMessage : Prop :=
  ∀ (s : State) (m : List Byte) (len : BitVec 28) (p : List Byte), s.Holds m → s.buf.wf = true →
    (Instr.feed len p).WellFormed → ∃ t, exec (.feed len p) s = .next t ∧ t.Holds (m ++ p) ∧ t.buf.wf = true

/-- FINAL returns the MD5 digest of the message the engine holds, and HEX its rendering, whatever the message and its
length; and on the empty message and on "abc" that digest is the one the source states (95_test_vectors L1-1, L1-2). -/
def Obligations.FinalReturnsTheMd5Digest : Prop :=
  (∀ (s : State) (m : List Byte), s.Holds m → s.buf.wf = true →
    (∃ t, exec .final s = .next t ∧ t.digest = md5 m ∧ t.resp = s.resp ++ (md5 m).toList) ∧
    (∃ t, exec .hex s = .next t ∧ t.digest = md5 m ∧ t.resp = s.resp ++ hexDigest (md5 m))) ∧
  (md5 []).toList =
    [0xD4, 0x1D, 0x8C, 0xD9, 0x8F, 0x00, 0xB2, 0x04, 0xE9, 0x80, 0x09, 0x98, 0xEC, 0xF8, 0x42, 0x7E] ∧
  (md5 [0x61, 0x62, 0x63]).toList =
    [0x90, 0x01, 0x50, 0x98, 0x3C, 0xD2, 0x4F, 0xB0, 0xD6, 0x96, 0x3F, 0x7D, 0x28, 0xE1, 0x7F, 0x72]

/-! ## The assembler (30_encoding R70, R71) -/

/-- The expansion of a FEED of any length: the runs make up the payload in order, each fits one FEED and is full but
for the last, the last is not empty where the payload is not, and each FEED is a well-formed command. -/
def Obligations.LongFeedsSplitExactly : Prop :=
  ∀ p : List Byte,
    (runsOf p).flatten = p ∧
    (∀ r ∈ runsOf p, r.length ≤ 0x0FFFFFFF ∧ (feedOf r).WellFormed) ∧
    (∀ r ∈ (runsOf p).dropLast, r.length = 0x0FFFFFFF) ∧
    (p ≠ [] → ∀ r ∈ runsOf p, r ≠ []) ∧
    (p.length ≤ 0x0FFFFFFF → runsOf p = [p])
end

