-- ==== Sys2Proof/Laws/Decode.lean ====
section
/-! SUPPORT. The laws of reading commands off the channel: byte order, the header's fields, and everything `decode` can
answer. -/

namespace Sys2Proof

/-! ## Byte order (00_scope R11) -/

theorem le32_bytesLe32 (w : Word) :
    le32 (w.extractLsb' 0 8) (w.extractLsb' 8 8) (w.extractLsb' 16 8) (w.extractLsb' 24 8) = w := by
  unfold le32
  ext i hi
  simp only [BitVec.getElem_or, BitVec.getElem_shiftLeft, BitVec.getElem_setWidth, BitVec.getLsbD_extractLsb']
  by_cases h1 : i < 8
  · simp [h1, show i < 16 by omega, show i < 24 by omega, BitVec.getLsbD_eq_getElem hi]
  · by_cases h2 : i < 16
    · simp [h1, h2, show i < 24 by omega, show i - 8 < 8 by omega, show 8 + (i - 8) = i by omega,
        BitVec.getLsbD_eq_getElem hi]
    · by_cases h3 : i < 24
      · simp [h1, h2, h3, show ¬ i - 8 < 8 by omega, show i - 16 < 8 by omega, show 16 + (i - 16) = i by omega,
          BitVec.getLsbD_eq_getElem hi]
      · simp [h1, h2, h3, show ¬ i - 8 < 8 by omega, show ¬ i - 16 < 8 by omega, show i - 24 < 8 by omega,
          show 24 + (i - 24) = i by omega, BitVec.getLsbD_eq_getElem hi]

theorem bytesLe32_le32 (b0 b1 b2 b3 : Byte) : bytesLe32 (le32 b0 b1 b2 b3) = [b0, b1, b2, b3] := by
  unfold bytesLe32 le32
  refine congrArg₂ _ ?_ (congrArg₂ _ ?_ (congrArg₂ _ ?_ (congrArg₂ _ ?_ rfl)))
  all_goals
    ext i hi
    simp only [BitVec.getElem_extractLsb', BitVec.getLsbD_or, BitVec.getLsbD_shiftLeft, BitVec.getLsbD_setWidth]
  · simp [show i < 32 by omega, show i < 16 by omega, show i < 24 by omega, hi]
  · simp [show 8 + i < 32 by omega, show 8 + i < 16 by omega, show 8 + i < 24 by omega, hi]
    intros; omega
  · simp [show 16 + i < 32 by omega, show 16 + i < 24 by omega, hi, show 16 + i - 8 = 8 + i by omega,
      BitVec.getLsbD_of_ge b0 (16 + i) (by omega)]
    intros; omega
  · simp [show 24 + i < 32 by omega, show 24 + i - 8 = 16 + i by omega, show 24 + i - 16 = 8 + i by omega,
      BitVec.getLsbD_of_ge b0 (24 + i) (by omega), BitVec.getLsbD_of_ge b1 (16 + i) (by omega),
      BitVec.getLsbD_eq_getElem hi]
    intros; omega

/-! ## The header's two fields (30_encoding R60) -/

theorem opField_toNat (h : Word) : (opField h).toNat = h.toNat / 2 ^ 28 := by
  have := h.isLt
  simp only [opField, BitVec.extractLsb'_toNat, Nat.shiftRight_eq_div_pow]
  omega

theorem argField_toNat (h : Word) : (argField h).toNat = h.toNat % 2 ^ 28 := by
  simp [argField, BitVec.extractLsb'_toNat]

/-- A header made of an OP and an ARG has these two fields. -/
theorem fields_of_header (op : Nat) (arg : BitVec 28) (hop : op < 16) :
    (opField (BitVec.ofNat 32 (op * 2 ^ 28) ||| arg.setWidth 32)).toNat = op ∧
    argField (BitVec.ofNat 32 (op * 2 ^ 28) ||| arg.setWidth 32) = arg := by
  have ha := arg.isLt
  have e : (BitVec.ofNat 32 (op * 2 ^ 28) ||| arg.setWidth 32).toNat = op * 2 ^ 28 + arg.toNat := by
    rw [BitVec.toNat_or, BitVec.toNat_ofNat, BitVec.toNat_setWidth, Nat.mod_eq_of_lt (by omega),
      Nat.mod_eq_of_lt (by omega), Nat.mul_comm, Nat.two_pow_add_eq_or_of_lt ha]
  refine ⟨by rw [opField_toNat, e]; omega, BitVec.eq_of_toNat_eq ?_⟩
  rw [argField_toNat, e]
  omega

/-! ## What a header says (30_encoding R67) -/

theorem decodeHeader_init {h : Word} (hop : (opField h).toNat = 1) :
    decodeHeader h = if argField h = 0 then .init else .illegal reservedArgument := by simp [decodeHeader, hop, noArgument]

theorem decodeHeader_feed {h : Word} (hop : (opField h).toNat = 2) : decodeHeader h = .feed (argField h) := by
  simp [decodeHeader, hop]

theorem decodeHeader_final {h : Word} (hop : (opField h).toNat = 3) :
    decodeHeader h = if argField h = 0 then .final else .illegal reservedArgument := by simp [decodeHeader, hop, noArgument]

theorem decodeHeader_hex {h : Word} (hop : (opField h).toNat = 4) :
    decodeHeader h = if argField h = 0 then .hex else .illegal reservedArgument := by simp [decodeHeader, hop, noArgument]

theorem decodeHeader_status {h : Word} (hop : (opField h).toNat = 5) :
    decodeHeader h = if argField h = 0 then .status else .illegal reservedArgument := by
  simp [decodeHeader, hop, noArgument]

theorem decodeHeader_reserved {h : Word} (hop : (opField h).toNat = 0 ∨ 6 ≤ (opField h).toNat) :
    decodeHeader h = .illegal illegalOpcode := by
  unfold decodeHeader
  split <;> first | omega | rfl

/-- The OP field takes one of these values. -/
theorem opField_cases (h : Word) :
    (opField h).toNat = 1 ∨ (opField h).toNat = 2 ∨ (opField h).toNat = 3 ∨ (opField h).toNat = 4 ∨
    (opField h).toNat = 5 ∨ (opField h).toNat = 0 ∨ 6 ≤ (opField h).toNat := by omega

/-! ## Everything `decode` can answer -/

@[simp] theorem Instr.wellFormed_feed (len : BitVec 28) (p : List Byte) :
    (Instr.feed len p).WellFormed ↔ p.length = len.toNat := by simp [Instr.WellFormed, Instr.wellFormed]

theorem decode_cons (h0 h1 h2 h3 : Byte) (rest : List Byte) :
    decode (h0 :: h1 :: h2 :: h3 :: rest) =
      match decodeHeader (le32 h0 h1 h2 h3) with
      | .init => .command .init rest
      | .feed len =>
        if len.toNat ≤ rest.length then .command (.feed len (rest.take len.toNat)) (rest.drop len.toNat) else .incomplete
      | .final => .command .final rest
      | .hex => .command .hex rest
      | .status => .command .status rest
      | .illegal code => .illegal code rest := rfl

/-- A stream of at least four bytes begins with a header. -/
theorem four_bytes_or_short (bs : List Byte) :
    bs.length < 4 ∨ ∃ h0 h1 h2 h3 rest, bs = h0 :: h1 :: h2 :: h3 :: rest := by
  match bs with
  | [] | [_] | [_, _] | [_, _, _] => simp
  | h0 :: h1 :: h2 :: h3 :: rest => exact .inr ⟨h0, h1, h2, h3, rest, rfl⟩

theorem decode_short {bs : List Byte} (h : bs.length < 4) : decode bs = .incomplete := by
  match bs with
  | [] | [_] | [_, _] | [_, _, _] => rfl
  | _ :: _ :: _ :: _ :: _ => exact absurd h (by simp)

/-- A command that is read is well-formed: a FEED's payload has the length its header announces. -/
theorem decode_wellFormed {bs rest : List Byte} {i : Instr} (h : decode bs = .command i rest) : i.WellFormed := by
  obtain hs | ⟨h0, h1, h2, h3, p, rfl⟩ := four_bytes_or_short bs
  · simp [decode_short hs] at h
  · rw [decode_cons] at h
    split at h <;> try (simp only [Fetched.command.injEq, reduceCtorEq] at h) <;> try (obtain ⟨rfl, -⟩ := h; rfl)
    split_ifs at h with hl
    simp only [Fetched.command.injEq] at h
    obtain ⟨rfl, -⟩ := h
    simpa using hl

end Sys2Proof
end

