-- ==== Sys2Proof/Laws/Memory.lean ====
section
/-! SUPPORT. The laws of the staging buffer: every write inside the buffer keeps the canonical form, a read after a write
gives what was written there, and a write leaves every other offset alone (20_memory R41, R45). -/

namespace Sys2Proof.Machine

/-! ## The canonical form -/

theorem Memory.wfFrom_cons (lo a : Nat) (v : Byte) (m : Memory) :
    Memory.wfFrom lo ((a, v) :: m) = true ↔
      lo ≤ a ∧ a < 64 ∧ v ≠ Memory.unlisted ∧ Memory.wfFrom (a + 1) m = true := by
  simp [Memory.wfFrom, and_assoc]

theorem Memory.wfFrom_le {lo lo' : Nat} {m : Memory} (h : lo' ≤ lo) (hm : Memory.wfFrom lo m = true) :
    Memory.wfFrom lo' m = true := by
  cases m with
  | nil => rfl
  | cons e m => rw [Memory.wfFrom_cons] at *; exact ⟨by omega, hm.2⟩

theorem Memory.read_below {lo off : Nat} {m : Memory} (hm : Memory.wfFrom lo m = true) (h : off < lo) :
    m.read off = Memory.unlisted := by
  induction m generalizing lo with
  | nil => rfl
  | cons e m ih =>
    rw [Memory.wfFrom_cons] at hm
    rw [Memory.read, if_neg (by omega)]
    exact ih hm.2.2.2 (by omega)

theorem Memory.write_wfFrom {lo off : Nat} {m : Memory} (v : Byte) (hm : Memory.wfFrom lo m = true)
    (hlo : lo ≤ off) (hoff : off < 64) : Memory.wfFrom lo (m.write off v) = true := by
  induction m generalizing lo with
  | nil =>
    simp only [Memory.write]
    split_ifs with hv
    · rfl
    · exact (Memory.wfFrom_cons ..).2 ⟨hlo, hoff, hv, rfl⟩
  | cons e m ih =>
    obtain ⟨a, w⟩ := e
    have hc := (Memory.wfFrom_cons ..).1 hm
    simp only [Memory.write]
    split_ifs with h1 hv h2 hv
    · exact hm
    · exact (Memory.wfFrom_cons ..).2 ⟨hlo, hoff, hv, (Memory.wfFrom_cons ..).2 ⟨by omega, hc.2⟩⟩
    · exact Memory.wfFrom_le (by omega) hc.2.2.2
    · exact (Memory.wfFrom_cons ..).2 ⟨hlo, hoff, hv, Memory.wfFrom_le (by omega) hc.2.2.2⟩
    · exact (Memory.wfFrom_cons ..).2 ⟨hc.1, hc.2.1, hc.2.2.1, ih hc.2.2.2 (by omega)⟩

theorem Memory.write_wf {off : Nat} {m : Memory} (v : Byte) (hm : m.wf = true) (hoff : off < 64) :
    (m.write off v).wf = true := Memory.write_wfFrom v hm (Nat.zero_le _) hoff

theorem Memory.writeBytes_wf {off : Nat} {m : Memory} (bs : List Byte) (hm : m.wf = true)
    (h : off + bs.length ≤ 64) : (m.writeBytes off bs).wf = true := by
  induction bs generalizing m off with
  | nil => exact hm
  | cons b bs ih =>
    simp only [List.length_cons] at h
    exact ih (Memory.write_wf b hm (by omega)) (by omega)

theorem Memory.zeroFill_wf {off n : Nat} {m : Memory} (hm : m.wf = true) (h : off + n ≤ 64) :
    (m.zeroFill off n).wf = true := Memory.writeBytes_wf _ hm (by simpa using h)

@[simp] theorem bytesLe32_length (w : Word) : (bytesLe32 w).length = 4 := rfl

theorem Memory.write4_wf {off : Nat} {m : Memory} (v : Word) (hm : m.wf = true) (h : off + 4 ≤ 64) :
    (m.write4 off v).wf = true := Memory.writeBytes_wf _ hm (by simpa using h)

/-! ## A write leaves every other offset alone -/

theorem Memory.read_write_other {a off : Nat} (m : Memory) (v : Byte) (h : a ≠ off) :
    (m.write off v).read a = m.read a := by
  induction m with
  | nil =>
    simp only [Memory.write]
    split_ifs
    · rfl
    · simp [Memory.read, Ne.symm h]
  | cons e m ih =>
    obtain ⟨b, w⟩ := e
    simp only [Memory.write]
    split_ifs with h1 hv h2 hv
    · rfl
    · simp [Memory.read, Ne.symm h]
    · subst h2; simp [Memory.read, Ne.symm h]
    · subst h2; simp [Memory.read, Ne.symm h]
    · simp [Memory.read, ih]

theorem Memory.read_writeBytes_other {a off : Nat} (m : Memory) (bs : List Byte)
    (h : a < off ∨ off + bs.length ≤ a) : (m.writeBytes off bs).read a = m.read a := by
  induction bs generalizing m off with
  | nil => rfl
  | cons b bs ih =>
    simp only [List.length_cons] at h
    rw [Memory.writeBytes, ih _ (by omega), Memory.read_write_other _ _ (by omega)]

/-! ## A read after a write gives what was written -/

theorem Memory.read_write_same_from {lo off : Nat} {m : Memory} (v : Byte) (hm : Memory.wfFrom lo m = true) :
    (m.write off v).read off = v := by
  induction m generalizing lo with
  | nil =>
    simp only [Memory.write]
    split_ifs with hv
    · simp [Memory.read, hv]
    · simp [Memory.read]
  | cons e m ih =>
    obtain ⟨b, w⟩ := e
    have hc := (Memory.wfFrom_cons ..).1 hm
    simp only [Memory.write]
    split_ifs with h1 hv h2 hv
    · rw [Memory.read, if_neg (by omega), Memory.read_below hc.2.2.2 (by omega), hv]
    · simp [Memory.read]
    · rw [Memory.read_below hc.2.2.2 (by omega), hv]
    · simp [Memory.read]
    · rw [Memory.read, if_neg (by omega), ih hc.2.2.2]

theorem Memory.read_write_same {off : Nat} {m : Memory} (v : Byte) (hm : m.wf = true) :
    (m.write off v).read off = v := Memory.read_write_same_from v hm

theorem Memory.read_writeBytes_same {off k : Nat} {m : Memory} (bs : List Byte) (hm : m.wf = true)
    (h : off + bs.length ≤ 64) (hk : k < bs.length) : (m.writeBytes off bs).read (off + k) = bs[k] := by
  induction bs generalizing m off k with
  | nil => simp at hk
  | cons b bs ih =>
    simp only [List.length_cons] at h hk
    rw [Memory.writeBytes]
    cases k with
    | zero =>
      rw [Memory.read_writeBytes_other _ _ (by omega), Nat.add_zero, Memory.read_write_same b hm]
      rfl
    | succ k =>
      have := ih (m := m.write off b) (off := off + 1) (k := k) (Memory.write_wf b hm (by omega)) (by omega) (by omega)
      rw [show off + (k + 1) = off + 1 + k by omega, this]
      rfl

/-! ## Runs of bytes read back -/

@[simp] theorem Memory.bytes_length (m : Memory) (n : Nat) : (m.bytes n).length = n := by simp [Memory.bytes]

@[simp] theorem Memory.bytes_zero (m : Memory) : m.bytes 0 = [] := rfl

@[simp] theorem Memory.getElem_bytes (m : Memory) (n k : Nat) (h : k < (m.bytes n).length) :
    (m.bytes n)[k] = m.read k := by simp [Memory.bytes]

theorem Memory.bytes_congr {m m' : Memory} {n : Nat} (h : ∀ a, a < n → m.read a = m'.read a) :
    m.bytes n = m'.bytes n := by
  apply List.ext_getElem <;> simp +contextual [h]

theorem Memory.bytes_take (m : Memory) {n k : Nat} (h : k ≤ n) : (m.bytes n).take k = m.bytes k := by
  apply List.ext_getElem
  · simp [h]
  · intro i _ _; simp

theorem Memory.read_eq_of_bytes_eq {m m' : Memory} {n a : Nat} (h : m.bytes n = m'.bytes n) (ha : a < n) :
    m.read a = m'.read a := by
  have h1 := Memory.getElem_bytes m n a (by simpa using ha)
  have h2 := Memory.getElem_bytes m' n a (by simpa using ha)
  rw [← h1, ← h2]
  simp [h]

/-- Writing a run right after the first `off` bytes appends it to them. -/
theorem Memory.bytes_writeBytes {off : Nat} {m : Memory} (bs : List Byte) (hm : m.wf = true)
    (h : off + bs.length ≤ 64) : (m.writeBytes off bs).bytes (off + bs.length) = m.bytes off ++ bs := by
  apply List.ext_getElem
  · simp
  · intro i h1 h2
    simp only [Memory.bytes_length] at h1
    rw [Memory.getElem_bytes]
    by_cases hi : i < off
    · rw [List.getElem_append_left (by simpa using hi), Memory.getElem_bytes,
        Memory.read_writeBytes_other _ _ (.inl hi)]
    · rw [List.getElem_append_right (by simpa using hi)]
      have := Memory.read_writeBytes_same (k := i - off) bs hm h (by omega)
      rw [show off + (i - off) = i by omega] at this
      simp [this]

end Sys2Proof.Machine
end

