-- ==== Sys2Proof/Laws/Message.lean ====
section
/-! SUPPORT. The blocks of a byte string: how the whole blocks and the leftover of a concatenation are found, which is
what makes feeding in pieces the same as feeding at once (41_streaming_hasher R85). -/

namespace Sys2Proof.Machine

/-! ## Whole blocks, one at a time -/

theorem wholeBlocks_short {bs : List Byte} (h : bs.length < 64) : wholeBlocks bs = [] := by
  simp [wholeBlocks, Nat.div_eq_of_lt h]

theorem wholeBlocks_cons {bs : List Byte} (h : 64 ≤ bs.length) :
    wholeBlocks bs = bs.take 64 :: wholeBlocks (bs.drop 64) := by
  have hq : bs.length / 64 = (bs.length - 64) / 64 + 1 := by omega
  simp only [wholeBlocks, hq, List.range_succ_eq_map, List.map_cons, List.map_map,
    List.length_drop, List.drop_drop]
  simp [Function.comp_def, Nat.mul_add, Nat.add_comm]

@[simp] theorem wholeBlocks_length (bs : List Byte) : (wholeBlocks bs).length = bs.length / 64 := by
  simp [wholeBlocks]

theorem length_of_mem_wholeBlocks {bs b : List Byte} (h : b ∈ wholeBlocks bs) : b.length = 64 := by
  simp only [wholeBlocks, List.mem_map, List.mem_range] at h
  obtain ⟨k, hk, rfl⟩ := h
  rw [List.length_take, List.length_drop]
  omega

theorem transformAll_short {bs : List Byte} (acc : Acc) (h : bs.length < 64) : transformAll acc bs = acc := by
  simp [transformAll, wholeBlocks_short h]

theorem transformAll_cons {bs : List Byte} (acc : Acc) (h : 64 ≤ bs.length) :
    transformAll acc bs = transformAll (blockTransform acc (bs.take 64)) (bs.drop 64) := by
  simp [transformAll, wholeBlocks_cons h]

theorem transformAll_block {bs : List Byte} (acc : Acc) (h : bs.length = 64) :
    transformAll acc bs = blockTransform acc bs := by
  rw [transformAll_cons _ (by omega), List.take_of_length_le (by omega), transformAll_short _ (by simp [h])]

/-- Absorb's loop is the block transform run on the whole blocks of the run. -/
theorem absorbBlocks_eq (acc : Acc) (p : List Byte) : absorbBlocks (p.length / 64) acc p = transformAll acc p := by
  generalize hq : p.length / 64 = q
  induction q generalizing acc p with
  | zero => rw [transformAll_short _ (by omega), absorbBlocks]
  | succ q ih =>
    rw [transformAll_cons _ (by omega), absorbBlocks]
    exact ih _ _ (by simp; omega)

/-! ## Concatenation -/

theorem leftover_short {bs : List Byte} (h : bs.length < 64) : leftover bs = bs := by
  simp [leftover, Nat.div_eq_of_lt h]

@[simp] theorem leftover_length (bs : List Byte) : (leftover bs).length = bs.length % 64 := by
  simp only [leftover, List.length_drop]; omega

theorem leftover_drop {bs : List Byte} (h : 64 ≤ bs.length) : leftover bs = leftover (bs.drop 64) := by
  have hq : bs.length / 64 = (bs.length - 64) / 64 + 1 := by omega
  simp only [leftover, List.length_drop, List.drop_drop, hq]
  congr 1; omega

theorem transformAll_append {pre : List Byte} (acc : Acc) (q : List Byte) (h : pre.length % 64 = 0) :
    transformAll acc (pre ++ q) = transformAll (transformAll acc pre) q := by
  generalize hk : pre.length / 64 = k
  induction k generalizing acc pre with
  | zero =>
    obtain rfl : pre = [] := List.length_eq_zero_iff.1 (by omega)
    rw [transformAll_short (bs := []) acc (by simp), List.nil_append]
  | succ k ih =>
    have h64 : 64 ≤ pre.length := by omega
    rw [transformAll_cons _ (by simp; omega), transformAll_cons acc h64, List.take_append_of_le_length h64,
      List.drop_append_of_le_length h64]
    exact ih _ (by simp; omega) (by simp; omega)

theorem leftover_append {pre : List Byte} (q : List Byte) (h : pre.length % 64 = 0) :
    leftover (pre ++ q) = leftover q := by
  generalize hk : pre.length / 64 = k
  induction k generalizing pre with
  | zero =>
    obtain rfl : pre = [] := List.length_eq_zero_iff.1 (by omega)
    rfl
  | succ k ih =>
    have h64 : 64 ≤ pre.length := by omega
    rw [leftover_drop (by simp; omega), List.drop_append_of_le_length h64]
    exact ih (by simp; omega) (by simp; omega)

/-- A byte string is its whole blocks followed by its leftover. -/
theorem exists_whole_append_leftover (m : List Byte) :
    ∃ pre, m = pre ++ leftover m ∧ pre.length % 64 = 0 ∧ ∀ acc, transformAll acc m = transformAll acc pre := by
  refine ⟨m.take (64 * (m.length / 64)), (List.take_append_drop ..).symm, ?_, fun acc => ?_⟩
  · rw [List.length_take]; omega
  · have hl : (m.take (64 * (m.length / 64))).length % 64 = 0 := by rw [List.length_take]; omega
    conv_lhs => rw [← List.take_append_drop (64 * (m.length / 64)) m]
    rw [transformAll_append acc _ hl, transformAll_short]
    rw [List.length_drop]; omega

theorem transformAll_extend (acc : Acc) (m p : List Byte) :
    transformAll acc (m ++ p) = transformAll (transformAll acc m) (leftover m ++ p) := by
  obtain ⟨pre, hm, hl, hacc⟩ := exists_whole_append_leftover m
  rw [hacc acc]
  conv_lhs => rw [hm, List.append_assoc, transformAll_append acc _ hl]

theorem leftover_extend (m p : List Byte) : leftover (m ++ p) = leftover (leftover m ++ p) := by
  obtain ⟨pre, hm, hl, _⟩ := exists_whole_append_leftover m
  conv_lhs => rw [hm, List.append_assoc, leftover_append _ hl]

end Sys2Proof.Machine
end

