-- ==== Sys2Proof/Laws/State.lean ====
section
/-! SUPPORT. One lemma for each field and each update of State, so that no proof unfolds a record update. Each is true by
`rfl` once the state is taken apart; proved so, `simp` rewrites with it and never asks the kernel to compare two whole
states, which would unfold the block transform. -/

namespace Sys2Proof.Machine

@[simp] theorem State.withCmd_acc (s : State) (rest : List Byte) : (s.withCmd rest).acc = s.acc := by cases s; rfl

@[simp] theorem State.withCmd_countLo (s : State) (rest : List Byte) :
    (s.withCmd rest).countLo = s.countLo := by cases s; rfl

@[simp] theorem State.withCmd_countHi (s : State) (rest : List Byte) :
    (s.withCmd rest).countHi = s.countHi := by cases s; rfl

@[simp] theorem State.withCmd_buf (s : State) (rest : List Byte) : (s.withCmd rest).buf = s.buf := by cases s; rfl

@[simp] theorem State.withCmd_bufCnt (s : State) (rest : List Byte) :
    (s.withCmd rest).bufCnt = s.bufCnt := by cases s; rfl

@[simp] theorem State.withCmd_fin (s : State) (rest : List Byte) : (s.withCmd rest).fin = s.fin := by cases s; rfl

@[simp] theorem State.withCmd_digest (s : State) (rest : List Byte) :
    (s.withCmd rest).digest = s.digest := by cases s; rfl

@[simp] theorem State.withCmd_fault (s : State) (rest : List Byte) : (s.withCmd rest).fault = s.fault := by cases s; rfl

@[simp] theorem State.withCmd_cmd (s : State) (rest : List Byte) : (s.withCmd rest).cmd = rest := by cases s; rfl

@[simp] theorem State.withCmd_resp (s : State) (rest : List Byte) : (s.withCmd rest).resp = s.resp := by cases s; rfl

@[simp] theorem State.withCmd_resets (s : State) (rest : List Byte) :
    (s.withCmd rest).resets = s.resets := by cases s; rfl

@[simp] theorem State.emit_acc (s : State) (bs : List Byte) : (s.emit bs).acc = s.acc := by cases s; rfl

@[simp] theorem State.emit_countLo (s : State) (bs : List Byte) : (s.emit bs).countLo = s.countLo := by cases s; rfl

@[simp] theorem State.emit_countHi (s : State) (bs : List Byte) : (s.emit bs).countHi = s.countHi := by cases s; rfl

@[simp] theorem State.emit_buf (s : State) (bs : List Byte) : (s.emit bs).buf = s.buf := by cases s; rfl

@[simp] theorem State.emit_bufCnt (s : State) (bs : List Byte) : (s.emit bs).bufCnt = s.bufCnt := by cases s; rfl

@[simp] theorem State.emit_fin (s : State) (bs : List Byte) : (s.emit bs).fin = s.fin := by cases s; rfl

@[simp] theorem State.emit_digest (s : State) (bs : List Byte) : (s.emit bs).digest = s.digest := by cases s; rfl

@[simp] theorem State.emit_fault (s : State) (bs : List Byte) : (s.emit bs).fault = s.fault := by cases s; rfl

@[simp] theorem State.emit_cmd (s : State) (bs : List Byte) : (s.emit bs).cmd = s.cmd := by cases s; rfl

@[simp] theorem State.emit_resp (s : State) (bs : List Byte) : (s.emit bs).resp = s.resp ++ bs := by cases s; rfl

@[simp] theorem State.emit_resets (s : State) (bs : List Byte) : (s.emit bs).resets = s.resets := by cases s; rfl

@[simp] theorem startMessage_acc (s : State) : (startMessage s).acc = initialAcc := by cases s; rfl

@[simp] theorem startMessage_countLo (s : State) : (startMessage s).countLo = 0 := by cases s; rfl

@[simp] theorem startMessage_countHi (s : State) : (startMessage s).countHi = 0 := by cases s; rfl

@[simp] theorem startMessage_buf (s : State) : (startMessage s).buf = s.buf := by cases s; rfl

@[simp] theorem startMessage_bufCnt (s : State) : (startMessage s).bufCnt = 0 := by cases s; rfl

@[simp] theorem startMessage_fin (s : State) : (startMessage s).fin = false := by cases s; rfl

@[simp] theorem startMessage_digest (s : State) : (startMessage s).digest = s.digest := by cases s; rfl

@[simp] theorem startMessage_fault (s : State) : (startMessage s).fault = s.fault := by cases s; rfl

@[simp] theorem startMessage_cmd (s : State) : (startMessage s).cmd = s.cmd := by cases s; rfl

@[simp] theorem startMessage_resp (s : State) : (startMessage s).resp = s.resp := by cases s; rfl

@[simp] theorem startMessage_resets (s : State) : (startMessage s).resets = s.resets := by cases s; rfl

@[simp] theorem countAdd_acc (len : BitVec 28) (s : State) : (countAdd len s).acc = s.acc := by cases s; rfl

@[simp] theorem countAdd_countLo (len : BitVec 28) (s : State) :
    (countAdd len s).countLo = s.countLo + lenBits len := by cases s; rfl

@[simp] theorem countAdd_countHi (len : BitVec 28) (s : State) :
    (countAdd len s).countHi = s.countHi + (if s.countLo + lenBits len < lenBits len then 1 else 0) := by cases s; rfl

@[simp] theorem countAdd_buf (len : BitVec 28) (s : State) : (countAdd len s).buf = s.buf := by cases s; rfl

@[simp] theorem countAdd_bufCnt (len : BitVec 28) (s : State) : (countAdd len s).bufCnt = s.bufCnt := by cases s; rfl

@[simp] theorem countAdd_fin (len : BitVec 28) (s : State) : (countAdd len s).fin = s.fin := by cases s; rfl

@[simp] theorem countAdd_digest (len : BitVec 28) (s : State) : (countAdd len s).digest = s.digest := by cases s; rfl

@[simp] theorem countAdd_fault (len : BitVec 28) (s : State) : (countAdd len s).fault = s.fault := by cases s; rfl

@[simp] theorem countAdd_cmd (len : BitVec 28) (s : State) : (countAdd len s).cmd = s.cmd := by cases s; rfl

@[simp] theorem countAdd_resp (len : BitVec 28) (s : State) : (countAdd len s).resp = s.resp := by cases s; rfl

@[simp] theorem countAdd_resets (len : BitVec 28) (s : State) : (countAdd len s).resets = s.resets := by cases s; rfl

@[simp] theorem stageRun_acc (p : List Byte) (s : State) : (stageRun p s).acc = s.acc := by cases s; rfl

@[simp] theorem stageRun_countLo (p : List Byte) (s : State) : (stageRun p s).countLo = s.countLo := by cases s; rfl

@[simp] theorem stageRun_countHi (p : List Byte) (s : State) : (stageRun p s).countHi = s.countHi := by cases s; rfl

@[simp] theorem stageRun_buf (p : List Byte) (s : State) :
    (stageRun p s).buf = s.buf.writeBytes s.bufCnt.toNat p := by cases s; rfl

@[simp] theorem stageRun_bufCnt (p : List Byte) (s : State) :
    (stageRun p s).bufCnt = s.bufCnt + BitVec.ofNat 6 p.length := by cases s; rfl

@[simp] theorem stageRun_fin (p : List Byte) (s : State) : (stageRun p s).fin = s.fin := by cases s; rfl

@[simp] theorem stageRun_digest (p : List Byte) (s : State) : (stageRun p s).digest = s.digest := by cases s; rfl

@[simp] theorem stageRun_fault (p : List Byte) (s : State) : (stageRun p s).fault = s.fault := by cases s; rfl

@[simp] theorem stageRun_cmd (p : List Byte) (s : State) : (stageRun p s).cmd = s.cmd := by cases s; rfl

@[simp] theorem stageRun_resp (p : List Byte) (s : State) : (stageRun p s).resp = s.resp := by cases s; rfl

@[simp] theorem stageRun_resets (p : List Byte) (s : State) : (stageRun p s).resets = s.resets := by cases s; rfl

@[simp] theorem State.afterReset_acc (s : State) (sent : List Byte) (later : List (List Byte)) :
    (s.afterReset sent later).acc = State.reset.acc := by cases s; rfl

@[simp] theorem State.afterReset_countLo (s : State) (sent : List Byte) (later : List (List Byte)) :
    (s.afterReset sent later).countLo = State.reset.countLo := by cases s; rfl

@[simp] theorem State.afterReset_countHi (s : State) (sent : List Byte) (later : List (List Byte)) :
    (s.afterReset sent later).countHi = State.reset.countHi := by cases s; rfl

@[simp] theorem State.afterReset_buf (s : State) (sent : List Byte) (later : List (List Byte)) :
    (s.afterReset sent later).buf = State.reset.buf := by cases s; rfl

@[simp] theorem State.afterReset_bufCnt (s : State) (sent : List Byte) (later : List (List Byte)) :
    (s.afterReset sent later).bufCnt = State.reset.bufCnt := by cases s; rfl

@[simp] theorem State.afterReset_fin (s : State) (sent : List Byte) (later : List (List Byte)) :
    (s.afterReset sent later).fin = State.reset.fin := by cases s; rfl

@[simp] theorem State.afterReset_digest (s : State) (sent : List Byte) (later : List (List Byte)) :
    (s.afterReset sent later).digest = State.reset.digest := by cases s; rfl

@[simp] theorem State.afterReset_fault (s : State) (sent : List Byte) (later : List (List Byte)) :
    (s.afterReset sent later).fault = State.reset.fault := by cases s; rfl

@[simp] theorem State.afterReset_cmd (s : State) (sent : List Byte) (later : List (List Byte)) :
    (s.afterReset sent later).cmd = sent := by cases s; rfl

@[simp] theorem State.afterReset_resp (s : State) (sent : List Byte) (later : List (List Byte)) :
    (s.afterReset sent later).resp = s.resp := by cases s; rfl

@[simp] theorem State.afterReset_resets (s : State) (sent : List Byte) (later : List (List Byte)) :
    (s.afterReset sent later).resets = later := by cases s; rfl

@[simp] theorem absorbWhole_countLo (p : List Byte) (s : State) : (absorbWhole p s).countLo = s.countLo := by cases s; rfl

@[simp] theorem absorbWhole_countHi (p : List Byte) (s : State) : (absorbWhole p s).countHi = s.countHi := by cases s; rfl

@[simp] theorem absorbWhole_fin (p : List Byte) (s : State) : (absorbWhole p s).fin = s.fin := by cases s; rfl

@[simp] theorem absorbWhole_digest (p : List Byte) (s : State) : (absorbWhole p s).digest = s.digest := by cases s; rfl

@[simp] theorem absorbWhole_fault (p : List Byte) (s : State) : (absorbWhole p s).fault = s.fault := by cases s; rfl

@[simp] theorem absorbWhole_cmd (p : List Byte) (s : State) : (absorbWhole p s).cmd = s.cmd := by cases s; rfl

@[simp] theorem absorbWhole_resp (p : List Byte) (s : State) : (absorbWhole p s).resp = s.resp := by cases s; rfl

@[simp] theorem absorbWhole_resets (p : List Byte) (s : State) : (absorbWhole p s).resets = s.resets := by cases s; rfl

@[simp] theorem fillBlock_countLo (p : List Byte) (s : State) : (fillBlock p s).countLo = s.countLo := by cases s; rfl

@[simp] theorem fillBlock_countHi (p : List Byte) (s : State) : (fillBlock p s).countHi = s.countHi := by cases s; rfl

@[simp] theorem fillBlock_fin (p : List Byte) (s : State) : (fillBlock p s).fin = s.fin := by cases s; rfl

@[simp] theorem fillBlock_digest (p : List Byte) (s : State) : (fillBlock p s).digest = s.digest := by cases s; rfl

@[simp] theorem fillBlock_fault (p : List Byte) (s : State) : (fillBlock p s).fault = s.fault := by cases s; rfl

@[simp] theorem fillBlock_cmd (p : List Byte) (s : State) : (fillBlock p s).cmd = s.cmd := by cases s; rfl

@[simp] theorem fillBlock_resp (p : List Byte) (s : State) : (fillBlock p s).resp = s.resp := by cases s; rfl

@[simp] theorem fillBlock_resets (p : List Byte) (s : State) : (fillBlock p s).resets = s.resets := by cases s; rfl

@[simp] theorem finalize_countLo (s : State) : (finalize s).countLo = s.countLo := by cases s; rfl

@[simp] theorem finalize_countHi (s : State) : (finalize s).countHi = s.countHi := by cases s; rfl

@[simp] theorem finalize_fault (s : State) : (finalize s).fault = s.fault := by cases s; rfl

@[simp] theorem finalize_cmd (s : State) : (finalize s).cmd = s.cmd := by cases s; rfl

@[simp] theorem finalize_resp (s : State) : (finalize s).resp = s.resp := by cases s; rfl

@[simp] theorem finalize_resets (s : State) : (finalize s).resets = s.resets := by cases s; rfl

@[simp] theorem finalize_fin (s : State) : (finalize s).fin = true := by cases s; rfl

@[simp] theorem finalize_bufCnt (s : State) : (finalize s).bufCnt = 0 := by cases s; rfl

@[simp] theorem finalize_digest (s : State) : (finalize s).digest = serialize (finalize s).acc := by cases s; rfl

@[simp] theorem absorb_countLo (p : List Byte) (s : State) : (absorb p s).countLo = s.countLo := by
  unfold absorb; split_ifs <;> simp

@[simp] theorem absorb_countHi (p : List Byte) (s : State) : (absorb p s).countHi = s.countHi := by
  unfold absorb; split_ifs <;> simp

@[simp] theorem absorb_fin (p : List Byte) (s : State) : (absorb p s).fin = s.fin := by
  unfold absorb; split_ifs <;> simp

@[simp] theorem absorb_digest (p : List Byte) (s : State) : (absorb p s).digest = s.digest := by
  unfold absorb; split_ifs <;> simp

@[simp] theorem absorb_fault (p : List Byte) (s : State) : (absorb p s).fault = s.fault := by
  unfold absorb; split_ifs <;> simp

@[simp] theorem absorb_cmd (p : List Byte) (s : State) : (absorb p s).cmd = s.cmd := by
  unfold absorb; split_ifs <;> simp

@[simp] theorem absorb_resp (p : List Byte) (s : State) : (absorb p s).resp = s.resp := by
  unfold absorb; split_ifs <;> simp

@[simp] theorem absorb_resets (p : List Byte) (s : State) : (absorb p s).resets = s.resets := by
  unfold absorb; split_ifs <;> simp

@[simp] theorem raiseFault_acc (code : Byte) (s : State) : (raiseFault code s).acc = s.acc := by
  unfold raiseFault; split_ifs <;> rfl

@[simp] theorem raiseFault_countLo (code : Byte) (s : State) : (raiseFault code s).countLo = s.countLo := by
  unfold raiseFault; split_ifs <;> rfl

@[simp] theorem raiseFault_countHi (code : Byte) (s : State) : (raiseFault code s).countHi = s.countHi := by
  unfold raiseFault; split_ifs <;> rfl

@[simp] theorem raiseFault_buf (code : Byte) (s : State) : (raiseFault code s).buf = s.buf := by
  unfold raiseFault; split_ifs <;> rfl

@[simp] theorem raiseFault_bufCnt (code : Byte) (s : State) : (raiseFault code s).bufCnt = s.bufCnt := by
  unfold raiseFault; split_ifs <;> rfl

@[simp] theorem raiseFault_fin (code : Byte) (s : State) : (raiseFault code s).fin = s.fin := by
  unfold raiseFault; split_ifs <;> rfl

@[simp] theorem raiseFault_digest (code : Byte) (s : State) : (raiseFault code s).digest = s.digest := by
  unfold raiseFault; split_ifs <;> rfl

@[simp] theorem raiseFault_cmd (code : Byte) (s : State) : (raiseFault code s).cmd = s.cmd := by
  unfold raiseFault; split_ifs <;> rfl

@[simp] theorem raiseFault_resp (code : Byte) (s : State) : (raiseFault code s).resp = s.resp := by
  unfold raiseFault; split_ifs <;> rfl

@[simp] theorem raiseFault_resets (code : Byte) (s : State) : (raiseFault code s).resets = s.resets := by
  unfold raiseFault; split_ifs <;> rfl

@[simp] theorem finalizeIfNeeded_countLo (s : State) : (finalizeIfNeeded s).countLo = s.countLo := by
  unfold finalizeIfNeeded; split_ifs <;> simp

@[simp] theorem finalizeIfNeeded_countHi (s : State) : (finalizeIfNeeded s).countHi = s.countHi := by
  unfold finalizeIfNeeded; split_ifs <;> simp

@[simp] theorem finalizeIfNeeded_fault (s : State) : (finalizeIfNeeded s).fault = s.fault := by
  unfold finalizeIfNeeded; split_ifs <;> simp

@[simp] theorem finalizeIfNeeded_cmd (s : State) : (finalizeIfNeeded s).cmd = s.cmd := by
  unfold finalizeIfNeeded; split_ifs <;> simp

@[simp] theorem finalizeIfNeeded_resp (s : State) : (finalizeIfNeeded s).resp = s.resp := by
  unfold finalizeIfNeeded; split_ifs <;> simp

@[simp] theorem finalizeIfNeeded_resets (s : State) : (finalizeIfNeeded s).resets = s.resets := by
  unfold finalizeIfNeeded; split_ifs <;> simp

theorem raiseFault_clear (code : Byte) (s : State) (h : s.fault = 0x00) :
    raiseFault code s = { s with fault := code } := if_pos h

theorem raiseFault_faulted (code : Byte) (s : State) (h : s.fault ≠ 0x00) : raiseFault code s = s := if_neg h

end Sys2Proof.Machine
end

