-- ==== Sys2Proof/Laws/Hasher.lean ====
section
/-! SUPPORT. What the shared operations of the hasher do, each said once: CountAdd, Absorb, Finalize and the faulted
gate. -/

namespace Sys2Proof.Machine

/-! ## The faulted gate -/

/-- Everything the gate can do. -/
theorem whenNotFaulted_cases (s : State) (act : State → State) :
    (s.fault = 0x00 ∧ whenNotFaulted s act = .next (act s)) ∨ (s.fault ≠ 0x00 ∧ whenNotFaulted s act = .next s) := by
  by_cases h : s.fault = 0x00
  · exact .inl ⟨h, if_pos h⟩
  · exact .inr ⟨h, if_neg h⟩

theorem whenNotFaulted_clear {s : State} (act : State → State) (h : s.fault = 0x00) :
    whenNotFaulted s act = .next (act s) := if_pos h

theorem whenNotFaulted_faulted {s : State} (act : State → State) (h : s.fault ≠ 0x00) :
    whenNotFaulted s act = .next s := if_neg h

/-! ## Absorb -/

@[simp] theorem State.staged_length (s : State) : s.staged.length = s.bufCnt.toNat := by simp [State.staged]

theorem State.bufCnt_lt (s : State) : s.bufCnt.toNat < 64 := s.bufCnt.isLt

@[simp] theorem absorbWhole_acc (p : List Byte) (s : State) : (absorbWhole p s).acc = transformAll s.acc p := by
  rw [← absorbBlocks_eq]; cases s; rfl

@[simp] theorem absorbWhole_bufCnt (p : List Byte) (s : State) :
    (absorbWhole p s).bufCnt.toNat = p.length % 64 := by
  have : (absorbWhole p s).bufCnt = BitVec.ofNat 6 (leftover p).length := by cases s; rfl
  rw [this, leftover_length, BitVec.toNat_ofNat]
  omega

@[simp] theorem absorbWhole_buf (p : List Byte) (s : State) :
    (absorbWhole p s).buf = s.buf.writeBytes 0 (leftover p) := by cases s; rfl

@[simp] theorem fillBlock_buf (p : List Byte) (s : State) :
    (fillBlock p s).buf = s.buf.writeBytes s.bufCnt.toNat (p.take s.need) := by cases s; rfl

@[simp] theorem fillBlock_bufCnt (p : List Byte) (s : State) : (fillBlock p s).bufCnt = 0 := by cases s; rfl

@[simp] theorem fillBlock_acc (p : List Byte) (s : State) :
    (fillBlock p s).acc = blockTransform s.acc ((s.buf.writeBytes s.bufCnt.toNat (p.take s.need)).bytes 64) := by
  cases s; rfl

/-- Absorb with nothing staged. -/
theorem absorbWhole_spec {s : State} (p : List Byte) (hm : s.buf.wf = true) :
    (absorbWhole p s).staged = leftover p ∧ (absorbWhole p s).buf.wf = true := by
  have hl : (leftover p).length < 64 := by rw [leftover_length]; omega
  constructor
  · rw [State.staged, absorbWhole_bufCnt, absorbWhole_buf]
    have := Memory.bytes_writeBytes (off := 0) (leftover p) hm (by omega)
    simpa using this
  · rw [absorbWhole_buf]
    exact Memory.writeBytes_wf _ hm (by omega)

/-- Everything Absorb does: the accumulators after the whole blocks of the staged bytes followed by the run, the
leftover staged (41_streaming_hasher R84). -/
theorem absorb_spec {s : State} (p : List Byte) (hm : s.buf.wf = true) :
    (absorb p s).acc = transformAll s.acc (s.staged ++ p) ∧
    (absorb p s).bufCnt.toNat = (s.bufCnt.toNat + p.length) % 64 ∧
    (absorb p s).staged = leftover (s.staged ++ p) ∧
    (absorb p s).buf.wf = true := by
  have hc := s.bufCnt_lt
  unfold absorb
  split_ifs with h0 hn
  · have hn' : s.bufCnt.toNat + p.length < 64 := by
      have : s.need = 64 - s.bufCnt.toNat := rfl
      omega
    have hcnt : (stageRun p s).bufCnt.toNat = s.bufCnt.toNat + p.length := by
      rw [stageRun_bufCnt, BitVec.toNat_add, BitVec.toNat_ofNat]; omega
    have hlen : (s.staged ++ p).length < 64 := by simpa using hn'
    refine ⟨?_, by rw [hcnt]; omega, ?_, ?_⟩
    · rw [transformAll_short _ hlen, stageRun_acc]
    · rw [leftover_short hlen, State.staged, hcnt, stageRun_buf, Memory.bytes_writeBytes p hm (by omega)]
      rfl
    · rw [stageRun_buf]; exact Memory.writeBytes_wf _ hm (by omega)
  · have hneed : s.need = 64 - s.bufCnt.toNat := rfl
    have htake : (p.take s.need).length = s.need := by rw [List.length_take]; omega
    have hfull : (s.buf.writeBytes s.bufCnt.toNat (p.take s.need)).bytes 64 = s.staged ++ p.take s.need := by
      have := Memory.bytes_writeBytes (off := s.bufCnt.toNat) (p.take s.need) hm (by omega)
      rwa [htake, show s.bufCnt.toNat + s.need = 64 by omega] at this
    have hpre : (s.staged ++ p.take s.need).length = 64 := by
      rw [List.length_append, State.staged_length, htake]; omega
    have hwf : (fillBlock p s).buf.wf = true := by
      rw [fillBlock_buf]; exact Memory.writeBytes_wf _ hm (by omega)
    have hsplit : s.staged ++ p = (s.staged ++ p.take s.need) ++ p.drop s.need := by
      rw [List.append_assoc, List.take_append_drop]
    obtain ⟨h1, h2⟩ := absorbWhole_spec (p.drop s.need) hwf
    refine ⟨?_, ?_, ?_, h2⟩
    · rw [hsplit, transformAll_append _ _ (by omega), transformAll_block _ hpre, absorbWhole_acc, fillBlock_acc, hfull]
    · rw [absorbWhole_bufCnt, List.length_drop]; omega
    · rw [h1, hsplit, leftover_append _ (by omega)]
  · have hz : s.bufCnt.toNat = 0 := by omega
    have hst : s.staged = [] := by rw [State.staged, hz, Memory.bytes_zero]
    obtain ⟨h1, h2⟩ := absorbWhole_spec p hm
    exact ⟨by rw [hst, absorbWhole_acc, List.nil_append], by rw [absorbWhole_bufCnt, hz, Nat.zero_add],
      by rw [h1, hst, List.nil_append], h2⟩

/-! ## CountAdd -/

/-- The run's length in bits is exact (30_encoding R62). -/
theorem lenBits_toNat (len : BitVec 28) : (lenBits len).toNat = 8 * len.toNat := by
  have := len.isLt
  simp only [lenBits, BitVec.toNat_shiftLeft, BitVec.toNat_setWidth, Nat.shiftLeft_eq]
  omega

/-- The carry is 1 exactly when the low half's sum reaches 2^32 (41_streaming_hasher R83). -/
theorem carry_iff (len : BitVec 28) (lo : Word) :
    lo + lenBits len < lenBits len ↔ 2 ^ 32 ≤ lo.toNat + 8 * len.toNat := by
  have h1 := lenBits_toNat len
  have h2 := len.isLt
  have h3 := lo.isLt
  rw [BitVec.lt_def, BitVec.toNat_add, h1]
  omega

/-! ## Finalize -/

theorem lastBlock_spec {m : Memory} {c : Nat} (lo hi : Word) (hm : m.wf = true) (hc : c ≤ 56) :
    (lastBlock m c lo hi).bytes 64 = m.bytes c ++ (List.replicate (56 - c) 0x00 ++ bytesLe32 lo ++ bytesLe32 hi) ∧
    (lastBlock m c lo hi).wf = true := by
  have w1 := Memory.zeroFill_wf (off := c) (n := 56 - c) hm (by omega)
  have w2 := Memory.write4_wf (off := 56) lo w1 (by omega)
  have e1 := Memory.bytes_writeBytes (off := c) (List.replicate (56 - c) 0x00) hm (by simp; omega)
  have e2 := Memory.bytes_writeBytes (off := 56) (bytesLe32 lo) w1 (by simp)
  have e3 := Memory.bytes_writeBytes (off := 60) (bytesLe32 hi) w2 (by simp)
  rw [List.length_replicate, show c + (56 - c) = 56 by omega] at e1
  simp only [bytesLe32_length] at e2 e3
  refine ⟨?_, Memory.write4_wf (off := 60) hi w2 (by omega)⟩
  unfold lastBlock
  rw [Memory.write4, e3, Memory.write4, e2, Memory.zeroFill, e1]
  simp

theorem State.marked_spec {s : State} (hm : s.buf.wf = true) :
    s.marked.bytes (s.bufCnt.toNat + 1) = s.staged ++ [0x80] ∧ s.marked.wf = true :=
  have hc := s.bufCnt_lt
  ⟨Memory.bytes_writeBytes [0x80] hm (by simp; omega), Memory.write_wf _ hm hc⟩

/-- Where the length fits: one last block, the staged bytes followed by their padding. -/
theorem finalize_fits {s : State} (h : s.bufCnt.toNat ≤ 55) :
    (finalize s).buf = lastBlock s.marked (s.bufCnt.toNat + 1) s.countLo s.countHi ∧
    (finalize s).acc = blockTransform s.acc ((finalize s).buf.bytes 64) := by
  have ho : s.overflows = false := by simp [State.overflows]; omega
  simp [finalize, padBlock, ho]

/-- The zero-filled block of a finalize whose length does not fit. -/
theorem finalize_overflows {s : State} (h : 56 ≤ s.bufCnt.toNat) :
    (finalize s).buf =
      lastBlock (s.marked.zeroFill (s.bufCnt.toNat + 1) (63 - s.bufCnt.toNat)) 0 s.countLo s.countHi ∧
    (finalize s).acc =
      blockTransform
        (blockTransform s.acc ((s.marked.zeroFill (s.bufCnt.toNat + 1) (63 - s.bufCnt.toNat)).bytes 64))
        ((finalize s).buf.bytes 64) := by
  have ho : s.overflows = true := by simp [State.overflows]; omega
  have he : 64 - (s.bufCnt.toNat + 1) = 63 - s.bufCnt.toNat := by omega
  simp [finalize, padBlock, ho, he]

/-- What Finalize transforms is one whole block or two (41_streaming_hasher R88). -/
theorem padded_length (s : State) :
    (s.staged ++ padding s.bufCnt.toNat s.countLo s.countHi).length = if s.bufCnt.toNat ≤ 55 then 64 else 128 := by
  have := s.bufCnt_lt
  simp [padding, bytesLe32, zeroPad]
  split_ifs <;> omega

/-- Everything Finalize does to the accumulators and the buffer (41_streaming_hasher R87): the transform runs on the
blocks of the staged bytes followed by their padding, and the last of them stays in the buffer. -/
theorem finalize_spec {s : State} (hm : s.buf.wf = true) :
    (finalize s).acc = transformAll s.acc (s.staged ++ padding s.bufCnt.toNat s.countLo s.countHi) ∧
    (finalize s).buf.bytes 64 = (s.staged ++ padding s.bufCnt.toNat s.countLo s.countHi).drop
      (if s.bufCnt.toNat ≤ 55 then 0 else 64) ∧
    (finalize s).buf.wf = true := by
  have hc := s.bufCnt_lt
  obtain ⟨hmark, hmarkwf⟩ := State.marked_spec hm
  by_cases h : s.bufCnt.toNat ≤ 55
  · obtain ⟨hb, ha⟩ := finalize_fits h
    obtain ⟨hl, hlwf⟩ := lastBlock_spec s.countLo s.countHi hmarkwf (show s.bufCnt.toNat + 1 ≤ 56 by omega)
    have hz : zeroPad s.bufCnt.toNat = 56 - (s.bufCnt.toNat + 1) := by unfold zeroPad; omega
    have hbytes : (finalize s).buf.bytes 64 = s.staged ++ padding s.bufCnt.toNat s.countLo s.countHi := by
      rw [hb, hl, hmark, padding, hz]; simp
    refine ⟨?_, by simp [h, hbytes], by rw [hb]; exact hlwf⟩
    rw [ha, hbytes, transformAll_block]
    rw [← hbytes, Memory.bytes_length]
  · have h56 : 56 ≤ s.bufCnt.toNat := by omega
    obtain ⟨hb, ha⟩ := finalize_overflows h56
    have hfill := Memory.bytes_writeBytes (off := s.bufCnt.toNat + 1) (List.replicate (63 - s.bufCnt.toNat) 0x00)
      hmarkwf (by simp; omega)
    rw [List.length_replicate, show s.bufCnt.toNat + 1 + (63 - s.bufCnt.toNat) = 64 by omega, hmark] at hfill
    have hfillwf := Memory.zeroFill_wf (off := s.bufCnt.toNat + 1) (n := 63 - s.bufCnt.toNat) hmarkwf (by omega)
    obtain ⟨hl, hlwf⟩ := lastBlock_spec (c := 0) s.countLo s.countHi hfillwf (by omega)
    have hz : zeroPad s.bufCnt.toNat = (63 - s.bufCnt.toNat) + 56 := by unfold zeroPad; omega
    have hfirst : (s.marked.zeroFill (s.bufCnt.toNat + 1) (63 - s.bufCnt.toNat)).bytes 64 =
        s.staged ++ [0x80] ++ List.replicate (63 - s.bufCnt.toNat) 0x00 := hfill
    have hlen : (s.staged ++ [0x80] ++ List.replicate (63 - s.bufCnt.toNat) (0x00 : Byte)).length = 64 := by
      rw [← hfirst, Memory.bytes_length]
    have hall : s.staged ++ padding s.bufCnt.toNat s.countLo s.countHi =
        (s.staged ++ [0x80] ++ List.replicate (63 - s.bufCnt.toNat) 0x00) ++ (finalize s).buf.bytes 64 := by
      rw [hb, hl, padding, hz, List.replicate_add]; simp
    refine ⟨?_, ?_, by rw [hb]; exact hlwf⟩
    · rw [ha, hall, transformAll_append _ _ (by omega), transformAll_block _ hlen, transformAll_block _ (by simp),
        hfirst]
    · rw [hall, if_neg h, List.drop_left' hlen]

/-! ## Finalize if needed -/

theorem finalizeIfNeeded_final {s : State} (h : s.fin = true) : finalizeIfNeeded s = s := if_pos h

theorem finalizeIfNeeded_absorbing {s : State} (h : s.fin = false) : finalizeIfNeeded s = finalize s := by
  simp [finalizeIfNeeded, h]

@[simp] theorem finalizeIfNeeded_fin (s : State) : (finalizeIfNeeded s).fin = true := by
  unfold finalizeIfNeeded; split_ifs with h <;> simp [h]

/-! ## The answers of FINAL and HEX -/

theorem answerDigest_eq (s : State) :
    answerDigest s = (finalizeIfNeeded s).emit (finalizeIfNeeded s).digest.toList := by simp only [answerDigest]

theorem answerHex_eq (s : State) :
    answerHex s = (finalizeIfNeeded s).emit (hexDigest (finalizeIfNeeded s).digest) := by simp only [answerHex]

end Sys2Proof.Machine
end

