-- ==== Sys2Proof/Laws/PerInstr.lean ====
section
/-! SUPPORT. One law per instruction as syntax: what its header word says and how long its encoding is (30_encoding R61,
R68). -/

namespace Sys2Proof.Laws.Header

/-- The header of a command, as 30_encoding R67 names it. -/
def expected : Instr → Sys2Proof.Header
  | .init => .init
  | .feed len _ => .feed len
  | .final => .final
  | .hex => .hex
  | .status => .status

/-- The header word of `i` decodes to `i`'s header, and a well-formed `i` takes its command length on the channel. -/
def Statement (i : Instr) : Prop :=
  decodeHeader (headerWord i) = expected i ∧ (i.WellFormed → (encode i).length = (expected i).commandLength)

theorem init : Statement .init := ⟨by decide, fun _ => rfl⟩

theorem feed (len : BitVec 28) (payload : List Byte) : Statement (.feed len payload) := by
  obtain ⟨hop, harg⟩ := fields_of_header 2 len (by decide)
  refine ⟨(decodeHeader_feed hop).trans (congrArg _ harg), fun h => ?_⟩
  have hl : payload.length = len.toNat := (Instr.wellFormed_feed ..).1 h
  simp [encode, Instr.payload, bytesLe32, expected, Sys2Proof.Header.commandLength, Sys2Proof.Header.payloadLength, hl]
  omega

theorem final : Statement .final := ⟨by decide, fun _ => rfl⟩

theorem hex : Statement .hex := ⟨by decide, fun _ => rfl⟩

theorem status : Statement .status := ⟨by decide, fun _ => rfl⟩

end Sys2Proof.Laws.Header
end

