-- ==== Sys2Proof/Laws/Step.lean ====
section
/-! SUPPORT. Everything a command and a step can do, each said once. -/

namespace Sys2Proof.Machine

/-! ## One command (41_streaming_hasher R80) -/

theorem exec_init (s : State) : exec .init s = whenNotFaulted s startMessage := rfl

theorem exec_feed (len : BitVec 28) (p : List Byte) (s : State) :
    exec (.feed len p) s = whenNotFaulted s (feedRun len p) := rfl

theorem exec_final (s : State) : exec .final s = whenNotFaulted s answerDigest := rfl

theorem exec_hex (s : State) : exec .hex s = whenNotFaulted s answerHex := rfl

theorem exec_status (s : State) : exec .status s = .next (s.emit (bytesLe32 s.statusWord)) := rfl

theorem feedRun_final {s : State} (len : BitVec 28) (p : List Byte) (h : s.fin = true) :
    feedRun len p s = raiseFault feedAfterFinal s := by simp [feedRun, h]

theorem feedRun_absorbing {s : State} (len : BitVec 28) (p : List Byte) (h : s.fin = false) :
    feedRun len p s = absorb p (countAdd len s) := by simp [feedRun, h]

/-- The one state each command can leave, by cases on what it finds. -/
def execResult (i : Instr) (s t : State) : Prop :=
  match i with
  | .init => (s.fault ≠ 0x00 ∧ t = s) ∨ (s.fault = 0x00 ∧ t = startMessage s)
  | .feed len p =>
    (s.fault ≠ 0x00 ∧ t = s) ∨ (s.fault = 0x00 ∧ s.fin = true ∧ t = raiseFault feedAfterFinal s) ∨
    (s.fault = 0x00 ∧ s.fin = false ∧ t = absorb p (countAdd len s))
  | .final =>
    (s.fault ≠ 0x00 ∧ t = s) ∨
    (s.fault = 0x00 ∧ t = (finalizeIfNeeded s).emit (finalizeIfNeeded s).digest.toList)
  | .hex =>
    (s.fault ≠ 0x00 ∧ t = s) ∨
    (s.fault = 0x00 ∧ t = (finalizeIfNeeded s).emit (hexDigest (finalizeIfNeeded s).digest))
  | .status => t = s.emit (bytesLe32 s.statusWord)

/-- Every command answers the next state of its result, and no other. -/
theorem exec_spec (i : Instr) (s : State) : ∃ t, exec i s = .next t ∧ execResult i s t := by
  cases i with
  | init =>
    obtain ⟨h, he⟩ | ⟨h, he⟩ := whenNotFaulted_cases s startMessage
    · exact ⟨_, he, .inr ⟨h, rfl⟩⟩
    · exact ⟨_, he, .inl ⟨h, rfl⟩⟩
  | feed len p =>
    obtain ⟨h, he⟩ | ⟨h, he⟩ := whenNotFaulted_cases s (feedRun len p)
    · cases hf : s.fin with
      | true => exact ⟨_, he, .inr (.inl ⟨h, hf, feedRun_final len p hf⟩)⟩
      | false => exact ⟨_, he, .inr (.inr ⟨h, hf, feedRun_absorbing len p hf⟩)⟩
    · exact ⟨_, he, .inl ⟨h, rfl⟩⟩
  | final =>
    obtain ⟨h, he⟩ | ⟨h, he⟩ := whenNotFaulted_cases s answerDigest
    · exact ⟨_, he, .inr ⟨h, answerDigest_eq s⟩⟩
    · exact ⟨_, he, .inl ⟨h, rfl⟩⟩
  | hex =>
    obtain ⟨h, he⟩ | ⟨h, he⟩ := whenNotFaulted_cases s answerHex
    · exact ⟨_, he, .inr ⟨h, answerHex_eq s⟩⟩
    · exact ⟨_, he, .inl ⟨h, rfl⟩⟩
  | status => exact ⟨_, rfl, rfl⟩

theorem exec_result {i : Instr} {s t : State} (h : exec i s = .next t) : execResult i s t := by
  obtain ⟨u, hu, hr⟩ := exec_spec i s
  rw [h] at hu
  cases hu
  exact hr

/-- Everything an illegal header can do. -/
theorem execIllegal_result {code : Byte} {s t : State} (h : execIllegal code s = .next t) :
    (s.fault ≠ 0x00 ∧ t = s) ∨ (s.fault = 0x00 ∧ t = { s with fault := code }) := by
  obtain ⟨hs, he⟩ | ⟨hs, he⟩ := whenNotFaulted_cases s (raiseFault code)
  · rw [execIllegal, he] at h
    cases h
    exact .inr ⟨hs, raiseFault_clear code s hs⟩
  · rw [execIllegal, he] at h
    cases h
    exact .inl ⟨hs, rfl⟩

theorem execIllegal_clear {s : State} (code : Byte) (h : s.fault = 0x00) :
    execIllegal code s = .next { s with fault := code } := by
  rw [execIllegal, whenNotFaulted_clear _ h, raiseFault_clear code s h]

theorem execIllegal_faulted {s : State} (code : Byte) (h : s.fault ≠ 0x00) : execIllegal code s = .next s :=
  whenNotFaulted_faulted _ h

/-! ## One step -/

theorem step_command {s : State} {i : Instr} {rest : List Byte} (h : decode s.cmd = .command i rest) :
    step s = exec i (s.withCmd rest) := by simp [step, fetch, h]

theorem step_illegal {s : State} {code : Byte} {rest : List Byte} (h : decode s.cmd = .illegal code rest) :
    step s = execIllegal code (s.withCmd rest) := by simp [step, fetch, h]

theorem step_incomplete {s : State} (h : decode s.cmd = .incomplete) : step s = holdOrReset s := by
  simp [step, fetch, h]

/-- Everything a step that answers a next state can have done: a whole command, an illegal header, or the reset. -/
theorem step_cases {s t : State} (h : step s = .next t) :
    (∃ i rest, decode s.cmd = .command i rest ∧ i.WellFormed ∧ execResult i (s.withCmd rest) t) ∨
    (∃ code rest, decode s.cmd = .illegal code rest ∧
      ((s.fault ≠ 0x00 ∧ t = s.withCmd rest) ∨ (s.fault = 0x00 ∧ t = { s.withCmd rest with fault := code }))) ∨
    (decode s.cmd = .incomplete ∧ ∃ sent later, s.resets = sent :: later ∧ t = s.afterReset sent later) := by
  cases hd : decode s.cmd with
  | command i rest =>
    rw [step_command hd] at h
    exact .inl ⟨i, rest, rfl, decode_wellFormed hd, exec_result h⟩
  | illegal code rest =>
    rw [step_illegal hd] at h
    exact .inr (.inl ⟨code, rest, rfl, execIllegal_result h⟩)
  | incomplete =>
    rw [step_incomplete hd, holdOrReset] at h
    split at h
    · cases h
    · next sent later hr =>
      cases h
      exact .inr (.inr ⟨rfl, sent, later, hr, rfl⟩)

end Sys2Proof.Machine
end

