-- ==== Sys2Proof/Tests/Slice0.lean ====
section
/-! SUPPORT. Tests of the model against spec/95_test_vectors.md and words written out from spec/30_encoding.md, and one
witness for every statement that has hypotheses. -/

namespace Sys2Proof.Tests

open Sys2Proof.Machine

/-! ## Helpers -/

/-- The message "abc". -/
def abc : List Byte := [0x61, 0x62, 0x63]

/-- `n` bytes `'a'`. -/
def letters (n : Nat) : List Byte := List.replicate n 0x61

/-- The engine after reset with these bytes on the command channel. -/
def sent (bs : List Byte) : State := { State.reset with cmd := bs }

/-- The engine with `n` bytes `'a'` fed and staged, for `n` below 64. -/
def fed (n : Nat) : State :=
  { State.reset with
    buf := Memory.writeBytes [] 0 (letters n)
    bufCnt := BitVec.ofNat 6 n
    countLo := BitVec.ofNat 32 (8 * n) }

/-- A finalized engine. -/
def finalized : State := answerDigest State.reset

/-- The engine after reset with a fault recorded. -/
def faulted (code : Byte) : State := { State.reset with fault := code }

/-- The next state of an answer, if it is one. -/
def after : Answer → Option State
  | .next s => some s
  | .fault _ => none
  | .refused _ => none

/-- The state after a number of steps. -/
def steps : Nat → State → Option State
  | 0, s => some s
  | n + 1, s => (after (step s)).bind (steps n)

/-- What the engine has answered after a number of steps. -/
def answers (n : Nat) (s : State) : Option (List Byte) := (steps n s).map State.resp

/-! ## Well-formedness -/

theorem test_wellFormed_refuses_short_payload : (Instr.feed 3 [0x61, 0x62]).wellFormed = false := by decide

theorem test_wellFormed_refuses_long_payload : (Instr.feed 0 [0x61]).wellFormed = false := by decide

theorem test_wellFormed_accepts :
    Instr.init.wellFormed = true ∧ (Instr.feed 3 abc).wellFormed = true ∧ (Instr.feed 0 []).wellFormed = true ∧
      Instr.final.wellFormed = true ∧ Instr.hex.wellFormed = true ∧ Instr.status.wellFormed = true := by decide

/-! ## Decoding: words written out from 30_encoding R60, R61, R65 and R72 -/

theorem test_decode_init : decode [0x00, 0x00, 0x00, 0x10, 0x99] = .command .init [0x99] := by decide

theorem test_decode_feed :
    decode [0x03, 0x00, 0x00, 0x20, 0x61, 0x62, 0x63, 0x99] = .command (.feed 3 abc) [0x99] := by decide

theorem test_decode_feed_empty : decode [0x00, 0x00, 0x00, 0x20] = .command (.feed 0 []) [] := by decide

theorem test_decode_final : decode [0x00, 0x00, 0x00, 0x30] = .command .final [] := by decide

theorem test_decode_hex : decode [0x00, 0x00, 0x00, 0x40] = .command .hex [] := by decide

theorem test_decode_status : decode [0x00, 0x00, 0x00, 0x50] = .command .status [] := by decide

/-- 95_test_vectors L2-E1: reserved opcodes, the order of the two checks, and a nonzero ARG. -/
theorem test_decode_illegal :
    decode [0x00, 0x00, 0x00, 0x00] = .illegal 0x01 [] ∧ decode [0x00, 0x00, 0x00, 0xF0] = .illegal 0x01 [] ∧
      decode [0x01, 0x00, 0x00, 0x60] = .illegal 0x01 [] ∧ decode [0x01, 0x00, 0x00, 0x30] = .illegal 0x02 [] ∧
      decode [0x00, 0x00, 0x00, 0x48] = .illegal 0x02 [] ∧ decode [0x01, 0x00, 0x00, 0x10] = .illegal 0x02 [] ∧
      decode [0x01, 0x00, 0x00, 0x50] = .illegal 0x02 [] := by decide

/-- The largest FEED header (30_encoding R72), and the headers next to the legal ones (R65). -/
theorem test_decode_header_boundaries :
    decodeHeader 0x0FFFFFFF = .illegal 0x01 ∧ decodeHeader 0x10000000 = .init ∧
      decodeHeader 0x1FFFFFFF = .illegal 0x02 ∧ decodeHeader 0x20000000 = .feed 0 ∧
      decodeHeader 0x2FFFFFFF = .feed 0x0FFFFFFF ∧ decodeHeader 0x30000000 = .final ∧
      decodeHeader 0x3FFFFFFF = .illegal 0x02 ∧ decodeHeader 0x4FFFFFFF = .illegal 0x02 ∧
      decodeHeader 0x5FFFFFFF = .illegal 0x02 ∧ decodeHeader 0x60000000 = .illegal 0x01 ∧
      decodeHeader 0xFFFFFFFF = .illegal 0x01 := by decide

/-- The rows of spec/opcode_table.json, by their match words. -/
theorem test_table_words :
    decodeTableWord 32 0x10000000 = some .init ∧ decodeTableWord 32 0x20000000 = some (.feed 0 []) ∧
      decodeTableWord 32 0x20000003 = some (.feed 3 [0, 0, 0]) ∧ decodeTableWord 32 0x30000000 = some .final ∧
      decodeTableWord 32 0x40000000 = some .hex ∧ decodeTableWord 32 0x50000000 = some .status ∧
      decodeTableWord 32 0x60000000 = none := by decide

/-- Each of them runs as the first command after reset: INIT and FEED change nothing that is read, FINAL and HEX
finalize, STATUS answers 0 (95_test_vectors L2-S). -/
theorem test_table_words_run_first :
    after (step (State.reset.withFetchWord 32 0x10000000)) = some State.reset ∧
      (after (step (State.reset.withFetchWord 32 0x20000002))).map State.statusWord = some 0x00020000 ∧
      (after (step (State.reset.withFetchWord 32 0x30000000))).map State.statusWord = some 0x00000100 ∧
      (after (step (State.reset.withFetchWord 32 0x40000000))).map State.statusWord = some 0x00000100 ∧
      (after (step (State.reset.withFetchWord 32 0x50000000))).map State.resp = some [0, 0, 0, 0] := by
  decide +kernel

/-! ## The commands, each in one or two small tests -/

/-- INIT after `FEED 3, "abc"; FINAL` (95_test_vectors L2-I): the status is 0 and `DIGEST` keeps its bytes. -/
theorem test_init_after_final :
    ((after (exec .init finalized)).map fun s => (s.acc, s.statusWord, s.digest == finalized.digest)) =
      some (⟨0x67452301, 0xEFCDAB89, 0x98BADCFE, 0x10325476⟩, 0x00000000, true) := by decide +kernel

/-- INIT while `FAULT = 0x03` is discarded (95_test_vectors L2-I). -/
theorem test_init_discarded : after (exec .init (faulted 0x03)) = some (faulted 0x03) := by decide

/-- `FEED 3, "abc"` from reset (41_streaming_hasher R82). -/
theorem test_feed_stages :
    ((after (exec (.feed 3 abc) State.reset)).map fun s =>
      (s.countLo, s.countHi, s.staged, s.acc, s.statusWord)) =
        some (0x00000018, 0, abc, initialAcc, 0x00030000) := by decide

/-- One byte staged, then 63 more and one (95_test_vectors L2-C2): a block boundary and the tail after it. -/
theorem test_feed_completes_block :
    ((after (exec (.feed 64 (letters 64)) (fed 1))).map fun s => (s.acc, s.countLo, s.statusWord, s.staged)) =
      some (⟨0x89D4FF56, 0x125CD962, 0x69CADE33, 0x0033E325⟩, 0x00000208, 0x00010000, [0x61]) := by decide +kernel

/-- FINAL of the empty message (95_test_vectors L1-1). -/
theorem test_final_empty :
    ((after (exec .final State.reset)).map fun s => (s.acc, s.resp, s.statusWord)) =
      some (⟨0xD98C1DD4, 0x04B2008F, 0x980980E9, 0x7E42F8EC⟩,
        [0xD4, 0x1D, 0x8C, 0xD9, 0x8F, 0x00, 0xB2, 0x04, 0xE9, 0x80, 0x09, 0x98, 0xEC, 0xF8, 0x42, 0x7E],
        0x00000100) := by decide +kernel

/-- FINAL where the length needs a second block (95_test_vectors L2-P1, L2-P2, 56 bytes `'a'`). -/
theorem test_final_two_blocks :
    ((after (exec .final (fed 56))).map fun s => (s.resp, s.buf.bytes 64)) =
      some ([0x3B, 0x0C, 0x8A, 0xC7, 0x03, 0xF8, 0x28, 0xB0, 0x4C, 0x6C, 0x19, 0x70, 0x06, 0xD1, 0x72, 0x18],
        List.replicate 56 0x00 ++ [0xC0, 0x01, 0x00, 0x00, 0x00, 0x00, 0x00, 0x00]) := by decide +kernel

/-- HEX of the empty message (95_test_vectors L2-X1). -/
theorem test_hex_empty :
    ((after (exec .hex State.reset)).map State.resp) =
      some [0x64, 0x34, 0x31, 0x64, 0x38, 0x63, 0x64, 0x39, 0x38, 0x66, 0x30, 0x30, 0x62, 0x32, 0x30, 0x34,
        0x65, 0x39, 0x38, 0x30, 0x30, 0x39, 0x39, 0x38, 0x65, 0x63, 0x66, 0x38, 0x34, 0x32, 0x37, 0x65] := by
  decide +kernel

/-- HEX after FINAL finalizes nothing again (95_test_vectors L2-X3). -/
theorem test_hex_after_final :
    ((after (exec .hex finalized)).map fun s => (s.acc == finalized.acc, s.statusWord)) =
      some (true, 0x00000100) := by decide +kernel

/-- STATUS with bytes staged (95_test_vectors L2-S). -/
theorem test_status_staged :
    ((after (exec .status (fed 63))).map State.resp) = some [0x00, 0x00, 0x3F, 0x00] := by decide

/-- STATUS executes in FAULTED and in FINALIZED (95_test_vectors L2-S, L2-E1). -/
theorem test_status_faulted :
    ((after (exec .status { fed 0 with fault := 0x03, fin := true })).map State.resp) =
      some [0x03, 0x01, 0x00, 0x00] := by decide

/-! ## Shared operations -/

/-- 95_test_vectors L2-F1: the carry, the wrap at 2^64, and the largest run. -/
theorem test_countAdd :
    (fun s : State => (s.countHi, s.countLo)) (countAdd 2 { State.reset with countHi := 5, countLo := 0xFFFFFFF8 }) =
        (6, 8) ∧
      (fun s : State => (s.countHi, s.countLo))
          (countAdd 1 { State.reset with countHi := 0xFFFFFFFF, countLo := 0xFFFFFFF8 }) = (0, 0) ∧
      (fun s : State => (s.countHi, s.countLo))
          (countAdd 0x0FFFFFFF { State.reset with countLo := 0x80000000 }) = (0, 0xFFFFFFF8) ∧
      (fun s : State => (s.countHi, s.countLo))
          (countAdd 0x0FFFFFFF { State.reset with countLo := 0x80000008 }) = (1, 0) := by decide

/-- 95_test_vectors L2-P3: the high half of the count stands at offset 60. -/
theorem test_high_count_word :
    (finalize { State.reset with countHi := 1 }).buf.bytes 64 =
      0x80 :: List.replicate 55 0x00 ++ [0x00, 0x00, 0x00, 0x00, 0x01, 0x00, 0x00, 0x00] := by decide +kernel

/-- 95_test_vectors L2-P2: 55 bytes leave room for the length in the same block. -/
theorem test_padded_block_full :
    (finalize (fed 55)).buf.bytes 64 =
      letters 55 ++ [0x80, 0xB8, 0x01, 0x00, 0x00, 0x00, 0x00, 0x00, 0x00] := by decide +kernel

/-- 95_test_vectors L2-T1: the rows that tell F from a majority, and G from F. -/
theorem test_mixing :
    mixF 0 0 0xFFFFFFFF = 0xFFFFFFFF ∧ mixG 0 0xFFFFFFFF 0 = 0xFFFFFFFF ∧ mixF 0 0xFFFFFFFF 0 = 0 ∧
      mixF 0x12345678 0x9ABCDEF0 0x0FEDCBA9 = 0x1FFDDFF1 ∧ mixG 0x12345678 0x9ABCDEF0 0x0FEDCBA9 = 0x92345678 ∧
      mixI 0x12345678 0x9ABCDEF0 0x0FEDCBA9 = 0x688AA88E := by decide

/-- 95_test_vectors L2-T2. -/
theorem test_rotl32 :
    rotl32 0x12345678 23 = 0x3C091A2B ∧ rotl32 0x80000001 23 = 0x00C00000 ∧ rotl32 0x00000001 7 = 0x00000080 := by
  decide

/-- 95_test_vectors L2-T4: round 0 of the empty-message block, in both forms. -/
theorem test_round_zero :
    roundStep (blockWords (0x80 :: List.replicate 63 0x00)) initialAcc 0 =
        ⟨0x10325476, 0xA5202774, 0xEFCDAB89, 0x98BADCFE⟩ ∧
      namedRound (blockWords (0x80 :: List.replicate 63 0x00)) initialAcc 0 =
        ⟨0xA5202774, 0xEFCDAB89, 0x98BADCFE, 0x10325476⟩ := by decide +kernel

/-- 95_test_vectors L2-T5 and L2-T6: a block whose words are all different, its word split and its transform. -/
theorem test_transform_of_counting_bytes :
    blockWord ((List.range 64).map (BitVec.ofNat 8)) 15 = 0x3F3E3D3C ∧
      blockTransform initialAcc ((List.range 64).map (BitVec.ofNat 8)) =
        ⟨0x9144D9CA, 0xD901E4C9, 0x72FC5B38, 0x625FF51E⟩ := by decide +kernel

/-- 95_test_vectors L2-X2. -/
theorem test_hexChar :
    (List.range 16).map (fun v => hexChar (BitVec.ofNat 4 v)) =
        [0x30, 0x31, 0x32, 0x33, 0x34, 0x35, 0x36, 0x37, 0x38, 0x39, 0x61, 0x62, 0x63, 0x64, 0x65, 0x66] ∧
      hexByte 0xD4 = [0x64, 0x34] ∧ hexByte 0x0F = [0x30, 0x66] ∧ hexByte 0xF0 = [0x66, 0x30] := by decide

/-- 20_memory R41: a four-byte write and a one-byte read, and a zero byte that leaves no entry. -/
theorem test_buffer_bytes :
    (Memory.write4 [] 56 0x00000018).read 56 = 0x18 ∧ Memory.write4 [] 56 0x00000018 = [(56, 0x18)] ∧
      Memory.write [(56, 0x18)] 56 0x00 = [] ∧ (Memory.write4 [] 60 0x01020304).read 63 = 0x01 := by decide

/-! ## Faults and reset, by steps on the channel -/

/-- 95_test_vectors L2-E1: a FEED while `FIN = 1` faults, and the next header starts after its payload. -/
theorem test_feed_after_final_faults :
    (after (step { finalized with cmd := [0x02, 0x00, 0x00, 0x20, 0x78, 0x79, 0x00] })) =
      some { finalized with cmd := [0x00], fault := 0x03 } := by decide +kernel

/-- 95_test_vectors L2-E2: framing is kept while faulted. -/
theorem test_framing_in_faulted :
    answers 3 (sent ([0x01, 0x00, 0x00, 0x10] ++ [0x04, 0x00, 0x00, 0x20, 0x00, 0x00, 0x00, 0x30] ++
      [0x00, 0x00, 0x00, 0x50])) = some [0x02, 0x00, 0x00, 0x00] := by decide

/-- 95_test_vectors L2-R: a partly received FEED holds; reset discards its 6 bytes; STATUS is read next. -/
theorem test_reset_in_partial_command :
    after (step (sent [0x05, 0x00, 0x00, 0x20, 0x68, 0x65])) = none ∧
      answers 2 { sent [0x05, 0x00, 0x00, 0x20, 0x68, 0x65] with resets := [[0x00, 0x00, 0x00, 0x50]] } =
        some [0x00, 0x00, 0x00, 0x00] := by decide

/-- 95_test_vectors L2-R: INIT does not clear a fault, reset does. -/
theorem test_reset_clears_fault :
    answers 5 { sent ([0x00, 0x00, 0x00, 0x00] ++ [0x00, 0x00, 0x00, 0x10] ++ [0x00, 0x00, 0x00, 0x50]) with
      resets := [[0x00, 0x00, 0x00, 0x50]] } =
        some [0x01, 0x00, 0x00, 0x00, 0x00, 0x00, 0x00, 0x00] := by decide

/-! ## The assembler (30_encoding R70, R71) -/

theorem test_assemble_pseudos :
    assembleLine ['F', 'E', 'E', 'D', 'S', ' ', '"', 'a', '\\', 'x', '0', 'F', '"', ' ', ';', 'c'] =
        some [0x02, 0x00, 0x00, 0x20, 0x61, 0x0F] ∧
      assembleLine ['F', 'E', 'E', 'D', 'N', ' ', '2', ',', ' ', '0', 'x', '6', '1'] =
        some [0x02, 0x00, 0x00, 0x20, 0x61, 0x61] ∧
      assembleLine ['H', 'A', 'S', 'H', 'H', 'E', 'X', ' ', '"', 'a', '"'] =
        some [0x00, 0x00, 0x00, 0x10, 0x01, 0x00, 0x00, 0x20, 0x61, 0x00, 0x00, 0x00, 0x40] := by decide

/-- The assembler refuses a line whose byte count is wrong, a lower-case mnemonic, and FEED without a payload. -/
theorem test_assemble_refuses :
    assembleLine ['F', 'E', 'E', 'D', ' ', '2', ',', ' ', '"', 'a', '"'] = none ∧
      assembleLine ['i', 'n', 'i', 't'] = none ∧ assembleLine ['F', 'E', 'E', 'D', ' ', '1'] = none := by decide

/-! ## Witnesses: states and operands that meet the hypotheses of each statement, clause by clause -/

theorem test_witness_WorkedEncodingsDecode : (List.replicate 0x0FFFFFFF (0x00 : Byte)).length = 0x0FFFFFFF :=
  List.length_replicate

theorem test_witness_LegalHeadersAreExactlyThese :
    decodeHeader 0x2FFFFFFF = .feed 0x0FFFFFFF ∧ decodeHeader 0x60000000 = .illegal 0x01 ∧
      decodeHeader 0x10000001 = .illegal 0x02 := by decide

theorem test_witness_DecodeAndEncodeAgree :
    (Instr.feed 3 abc).WellFormed ∧
      decode [0x03, 0x00, 0x00, 0x20, 0x61, 0x62, 0x63] = .command (.feed 3 abc) [] := by decide

theorem test_witness_CommandLengths :
    decode [0x00, 0x00, 0x00, 0x10] = .command .init [] ∧
      decode [0x00, 0x00, 0x00, 0x20, 0x07] = .command (.feed 0 []) [0x07] ∧
      decode [0x01, 0x00, 0x00, 0x20, 0x07] = .command (.feed 1 [0x07]) [] ∧
      decode [0x00, 0x00, 0x00, 0x30] = .command .final [] ∧ decode [0x00, 0x00, 0x00, 0x40] = .command .hex [] ∧
      decode [0x00, 0x00, 0x00, 0x50] = .command .status [] ∧
      decode [0x00, 0x00, 0x00, 0x60] = .illegal 0x01 [] := by decide

theorem test_witness_StepRunsTheCommandRead :
    ((Instr.feed 3 abc).WellFormed ∧ (sent [0x03, 0x00, 0x00, 0x20, 0x61, 0x62, 0x63, 0x99]).cmd =
      encode (.feed 3 abc) ++ [0x99]) ∧
    decode (sent [0x01, 0x00, 0x00, 0x30, 0x99]).cmd = .illegal 0x02 [0x99] := by decide

theorem test_witness_TableWordRunsNext : decodeTableWord 32 0x20000003 = some (.feed 3 [0, 0, 0]) := by decide

/-- Both directions and both ways of being incomplete: three header bytes, and a FEED one byte short. -/
theorem test_witness_EngineHoldsUntilCommandIsWhole :
    step (sent [0x00, 0x00, 0x00]) = .fault .held ∧
      step (sent [0x02, 0x00, 0x00, 0x20, 0x61]) = .fault .held ∧
      opField (le32 0x02 0x00 0x00 0x20) = 2 ∧ (argField (le32 0x02 0x00 0x00 0x20)).toNat = 2 :=
  ⟨rfl, rfl, by decide, by decide⟩

/-- The clauses: outside FAULTED, in FAULTED, the least and the greatest nonzero ARG, and INIT then STATUS. -/
theorem test_witness_InitStartsMessage :
    finalized.fault = 0x00 ∧ (faulted 0x01).fault ≠ 0x00 ∧ (1 : BitVec 28) ≠ 0 ∧ (0x0FFFFFFF : BitVec 28) ≠ 0 ∧
      ∃ t u, exec .init finalized = .next t ∧ exec .status t = .next u :=
  ⟨by decide, by decide, by decide, by decide, _, _, rfl, rfl⟩

/-- An empty run, a run that fills the staged block, and one byte more than that. -/
theorem test_witness_FeedAbsorbsTheRun :
    (Instr.feed 0 []).WellFormed ∧ (Instr.feed 1 [0x61]).WellFormed ∧ (Instr.feed 2 [0x61, 0x61]).WellFormed ∧
      (fed 63).buf.wf = true ∧ (fed 63).fault = 0x00 ∧ (fed 63).fin = false := by decide +kernel

theorem test_witness_EmptyFeedChangesNothing :
    ((fed 3).fault = 0x00 ∧ (fed 3).fin = false) ∧ finalized.fault = 0x00 ∧ finalized.fin = true := by
  decide +kernel

/-- Each branch of the stored offsets, at an offset next to the stored ones; and a FEED in FINALIZED and in FAULTED. -/
theorem test_witness_FeedFrame :
    (∃ t, exec (.feed 1 [0x61]) (fed 3) = .next t) ∧ (0 < (fed 3).bufCnt.toNat ∧ [0x61].length < (fed 3).need ∧
      ¬((fed 3).bufCnt.toNat ≤ 4 ∧ 4 < (fed 3).bufCnt.toNat + [0x61].length)) ∧
    (∃ t, exec (.feed 1 [0x61]) (fed 63) = .next t) ∧ (¬[0x61].length < (fed 63).need ∧
      ¬((fed 63).bufCnt.toNat ≤ 62 ∧ 62 < 64) ∧ ¬62 < ([0x61].length - (fed 63).need) % 64) ∧
    (∃ t, exec (.feed 1 [0x61]) State.reset = .next t) ∧ (¬0 < State.reset.bufCnt.toNat ∧ ¬1 < [0x61].length % 64) ∧
    (∃ t, exec (.feed 0 []) finalized = .next t) ∧ finalized.fin = true ∧
    (∃ t, exec (.feed 0 []) (faulted 0x02) = .next t) ∧ (faulted 0x02).fault ≠ 0x00 :=
  ⟨⟨_, rfl⟩, by decide, ⟨_, rfl⟩, by decide, ⟨_, rfl⟩, by decide, ⟨_, rfl⟩, by decide, ⟨_, rfl⟩, by decide⟩

/-- FINALIZED; ABSORBING with 55 and with 56 bytes staged, where one transform becomes two; FAULTED. -/
theorem test_witness_FinalFinalizesAndReturnsDigest :
    (finalized.fault = 0x00 ∧ finalized.fin = true) ∧
      ((fed 55).buf.wf = true ∧ (fed 55).fault = 0x00 ∧ (fed 55).fin = false) ∧
      ((fed 56).buf.wf = true ∧ (fed 56).fault = 0x00 ∧ (fed 56).fin = false) ∧ (faulted 0x01).fault ≠ 0x00 := by
  decide +kernel

/-- 55, 56 and 63 bytes staged; INIT and reset, then a FEED, a STATUS and a FEED; the boundary lengths. -/
theorem test_witness_FinalizeRunsOneOrTwoTransforms :
    ((fed 55).buf.wf = true ∧ (fed 55).bufCnt.toNat ≤ 55) ∧ ((fed 56).buf.wf = true ∧ 56 ≤ (fed 56).bufCnt.toNat) ∧
      ((fed 63).buf.wf = true ∧ 56 ≤ (fed 63).bufCnt.toNat) ∧
      ((fed 3).buf.wf = true ∧ (fed 3).fault = 0x00 ∧
        (∀ i ∈ [Instr.feed 3 abc, .status, .feed 0 []], i.WellFormed ∧ (i = .status ∨ ∃ len p, i = .feed len p)) ∧
        (∃ t, execAll [.feed 3 abc, .status, .feed 0 []] State.reset = .next t) ∧
        ∃ u t, exec .init (fed 3) = .next u ∧ execAll [.feed 3 abc, .status, .feed 0 []] u = .next t) ∧
      (zeroPad 55 = 0 ∧ zeroPad 56 = 63 ∧ zeroPad 63 = 56 ∧ zeroPad 64 = 55) ∧ (119 + 1 + 0 + 8) % 64 = 0 :=
  ⟨by decide +kernel, by decide +kernel, by decide +kernel,
    ⟨by decide, by decide, by simp [abc]; decide, ⟨_, rfl⟩, _, _, rfl, rfl⟩, by decide, by decide⟩

theorem test_witness_FinalAndHexAreIdempotent :
    (State.reset.fault = 0x00 ∧ ∃ t, exec .final State.reset = .next t) ∧
      (fed 56).fault = 0x00 ∧ ∃ t, exec .hex (fed 56) = .next t :=
  ⟨⟨rfl, _, rfl⟩, rfl, _, rfl⟩

theorem test_witness_HexFinalizesLikeFinal : (fed 56).fault = 0x00 ∧ (faulted 0x03).fault ≠ 0x00 := by decide

theorem test_witness_HexResponseIsLowercaseHex : (fed 3).fault = 0x00 ∧ 0 < 16 ∧ 15 < 16 := by decide

theorem test_witness_StatusReportsTheStatusWord :
    ((1 : BitVec 28) ≠ 0 ∧ (0x0FFFFFFF : BitVec 28) ≠ 0) ∧
      ((sent [0x01, 0x00, 0x00, 0x50]).cmd = bytesLe32 (0x50000000 ||| (1 : BitVec 28).setWidth 32) ++ []) ∧
      (faulted 0x02).fault ≠ 0x00 ∧ (letters 65).length = 65 ∧
      ∃ t u v, exec (.feed 65 (letters 65)) State.reset = .next t ∧ exec .status t = .next u ∧
        exec .final u = .next v :=
  ⟨by decide, by decide, by decide, by decide, _, _, _, rfl, rfl, rfl⟩

theorem test_witness_ResponseLengths :
    (∃ t, exec .init State.reset = .next t) ∧ (∃ t, exec (.feed 1 [0x61]) (fed 63) = .next t) ∧
      ((∃ t, exec .final State.reset = .next t) ∧ State.reset.fault = 0x00) ∧
      (∃ t, exec .hex State.reset = .next t) ∧ (∃ t, exec .status (faulted 0x01) = .next t) ∧
      ((faulted 0x01).fault ≠ 0x00 ∧ (∃ t, exec .final (faulted 0x01) = .next t) ∧
        ∃ t, exec .hex (faulted 0x01) = .next t) ∧ ∃ t, execIllegal 0x01 State.reset = .next t :=
  ⟨⟨_, rfl⟩, ⟨_, rfl⟩, ⟨⟨_, rfl⟩, rfl⟩, ⟨_, rfl⟩, ⟨_, rfl⟩, ⟨by decide, ⟨_, rfl⟩, _, rfl⟩, _, rfl⟩

theorem test_witness_LegalCommandsDoNotFault :
    ((fed 3).fault = 0x00 ∧ (fed 3).fin = false) ∧
      (finalized.fault = 0x00 ∧ finalized.fin = true ∧ ∀ len p, Instr.init ≠ .feed len p) :=
  ⟨by decide, by decide, by decide, fun _ _ => by simp⟩

/-- The reserved opcodes 0, 6 and 15, and the example. -/
theorem test_witness_ReservedOpcodeRaisesIllegalOpcode :
    (State.reset.fault = 0x00 ∧ (sent [0x00, 0x00, 0x00, 0x00]).cmd = 0x00 :: 0x00 :: 0x00 :: 0x00 :: [] ∧
      opField (le32 0x00 0x00 0x00 0x00) = 0) ∧
    (opField (le32 0xFF 0xFF 0xFF 0x6F)).toNat = 6 ∧ (opField (le32 0x00 0x00 0x00 0xF0)).toNat = 15 ∧
    ((sent [0x00, 0x00, 0x00, 0xF0]).lifecycle = .absorbing ∧
      ∃ t, step (sent [0x00, 0x00, 0x00, 0xF0]) = .next t) :=
  ⟨by decide, by decide, by decide, by decide, _, rfl⟩

/-- The four opcodes, and the least and the greatest nonzero ARG. -/
theorem test_witness_NonzeroArgRaisesReservedArgument :
    (sent [0x01, 0x00, 0x00, 0x10]).fault = 0x00 ∧
    (opField (le32 0x01 0x00 0x00 0x10) ∈ [1, 3, 4, 5] ∧ argField (le32 0x01 0x00 0x00 0x10) ≠ 0) ∧
    (opField (le32 0x01 0x00 0x00 0x30) ∈ [1, 3, 4, 5] ∧ argField (le32 0x01 0x00 0x00 0x30) ≠ 0) ∧
    (opField (le32 0x00 0x00 0x00 0x48) ∈ [1, 3, 4, 5] ∧ argField (le32 0x00 0x00 0x00 0x48) ≠ 0) ∧
    (opField (le32 0xFF 0xFF 0xFF 0x5F) ∈ [1, 3, 4, 5] ∧ argField (le32 0xFF 0xFF 0xFF 0x5F) ≠ 0) ∧
    ((sent [0x01, 0x00, 0x00, 0x30]).lifecycle = .absorbing ∧
      ∃ t, step (sent [0x01, 0x00, 0x00, 0x30]) = .next t) :=
  ⟨by decide, by decide, by decide, by decide, by decide, by decide, _, rfl⟩

/-- A FEED of the empty run and one with a payload, and the example. -/
theorem test_witness_FeedAfterFinalFaults :
    (finalized.fault = 0x00 ∧ finalized.fin = true) ∧ (Instr.feed 0 []).WellFormed ∧ (Instr.feed 3 abc).WellFormed ∧
      (sent [0x00, 0x00, 0x00, 0x20, 0x99]).cmd = encode (.feed 0 []) ++ [0x99] ∧
      (sent [0x03, 0x00, 0x00, 0x20, 0x61, 0x62, 0x63]).cmd = encode (.feed 3 abc) ++ [] ∧
      ∃ t u, exec .final State.reset = .next t ∧ exec (.feed 1 [0x78]) t = .next u :=
  ⟨by decide, by decide, by decide, by decide, by decide, _, _, rfl, rfl⟩

/-- Each outcome of the chain: codes 1, 2, 3 and none. -/
theorem test_witness_FaultPriority :
    (decode (sent [0x01, 0x00, 0x00, 0x60]).cmd ≠ .incomplete ∧
      ∃ t, step (sent [0x01, 0x00, 0x00, 0x60]) = .next t ∧ t.fault = 0x01) ∧
    (decode (sent [0x01, 0x00, 0x00, 0x30]).cmd ≠ .incomplete ∧
      ∃ t, step (sent [0x01, 0x00, 0x00, 0x30]) = .next t ∧ t.fault = 0x02) ∧
    (∃ t, step { finalized with cmd := [0x00, 0x00, 0x00, 0x20] } = .next t ∧ t.fault = 0x03) ∧
    ∃ t, step (sent [0x00, 0x00, 0x00, 0x20]) = .next t ∧ t.fault = 0x00 :=
  ⟨⟨by decide, _, rfl, rfl⟩, ⟨by decide, _, rfl, rfl⟩, ⟨_, rfl, rfl⟩, _, rfl, rfl⟩

/-- A fault of a header, and a fault of a FEED. -/
theorem test_witness_FaultsArePrecise :
    (∃ t, step (sent [0x00, 0x00, 0x00, 0x00]) = .next t ∧ t.fault ≠ 0x00 ∧
      t.fault ≠ (sent [0x00, 0x00, 0x00, 0x00]).fault) ∧
    ∃ t, step { finalized with cmd := [0x00, 0x00, 0x00, 0x20] } = .next t ∧ t.fault ≠ 0x00 ∧
      t.fault ≠ finalized.fault :=
  ⟨⟨_, rfl, by decide, by decide⟩, _, rfl, by decide, by decide⟩

/-- A command that is discarded, an illegal header, and STATUS. -/
theorem test_witness_FaultedExecutesOnlyStatus :
    (faulted 0x01).fault ≠ 0x00 ∧ Instr.init ≠ .status ∧ decode [0x00, 0x00, 0x00, 0x10] = .command .init [] ∧
      decode [0x01, 0x00, 0x00, 0x50] = .illegal 0x02 [] ∧ decode [0x00, 0x00, 0x00, 0x50] = .command .status [] := by
  decide

/-- Both outcomes: a command that keeps the code, and a reset that clears it. -/
theorem test_witness_OnlyResetClearsFault :
    (faulted 0x03).fault ≠ 0x00 ∧
      (∃ t, step { faulted 0x03 with cmd := [0x00, 0x00, 0x00, 0x10] } = .next t ∧ t.fault = 0x03) ∧
      ∃ t, step { faulted 0x03 with cmd := [0x00], resets := [[0x07]] } = .next t ∧ t.fault = 0x00 :=
  ⟨by decide, ⟨_, rfl, rfl⟩, _, rfl, rfl⟩

theorem test_witness_ResetAndInitValues : (fed 3).fault = 0x00 ∧ ∃ t, exec .init (fed 3) = .next t := ⟨rfl, _, rfl⟩

theorem test_witness_ResetEndsTheHold :
    decode (sent [0x05, 0x00, 0x00, 0x20, 0x68, 0x65]).cmd = .incomplete ∧
      ({ faulted 0x03 with cmd := [], resets := [[0x07], []] } : State).resets = [0x07] :: [[]] ∧
      decode ({ faulted 0x03 with cmd := [], resets := [[0x07], []] } : State).cmd = .incomplete := by decide

/-- INIT executed and discarded; a reset in FAULTED on three bytes of a header; a hold on them. -/
theorem test_witness_ResetAndInitAgreeOnTheHashingState :
    ((fed 3).fault = 0x00 ∧ ∃ t, exec .init (fed 3) = .next t) ∧ (faulted 0x01).fault ≠ 0x00 ∧
      (decode ({ faulted 0x03 with cmd := [0x00, 0x00, 0x00], resets := [[0x07]] } : State).cmd = .incomplete ∧
        ({ faulted 0x03 with cmd := [0x00, 0x00, 0x00], resets := [[0x07]] } : State).resets = [0x07] :: []) ∧
      decode (sent [0x00, 0x00, 0x00]).cmd = .incomplete ∧ (sent [0x00, 0x00, 0x00]).resets = [] :=
  ⟨⟨rfl, _, rfl⟩, by decide, by decide, by decide, by decide⟩

theorem test_witness_ResetWaitsForTheCommand :
    decode ({ sent [0x00, 0x00, 0x00, 0x10] with resets := [[]] } : State).cmd ≠ .incomplete ∧
      ∃ t, step { sent [0x00, 0x00, 0x00, 0x10] with resets := [[]] } = .next t := ⟨by decide, _, rfl⟩

/-- Each lifecycle state. -/
theorem test_witness_LifecycleMoves :
    ((faulted 0x01).lifecycle = .faulted ∧ ∃ t, exec .init (faulted 0x01) = .next t) ∧
      ((fed 3).lifecycle = .absorbing ∧ ∃ t, exec .hex (fed 3) = .next t) ∧
      (finalized.lifecycle = .finalized ∧ ∃ t, exec (.feed 0 []) finalized = .next t) :=
  ⟨⟨by decide, _, rfl⟩, ⟨by decide, _, rfl⟩, by decide, _, rfl⟩

theorem test_witness_MixingFunctions : 0 < 32 ∧ 31 < 32 := by decide

theorem test_witness_TablesInClosedForm : 63 < 64 ∧ 3 < 4 ∧ 15 < 16 := by decide

theorem test_witness_RotationMovesBitsLeft : (4 ≤ 4 ∧ 4 ≤ 23) ∧ (4 ≤ 23 ∧ 23 ≤ 23) ∧ 31 < 32 ∧ 1 ≤ 31 ∧ 31 ≤ 31 := by decide

theorem test_witness_SerializeIsLittleEndian :
    (3 < 4 ∧ 0 < 4) ∧ (∃ t, exec .final State.reset = .next t) ∧ ∃ t, exec .init State.reset = .next t :=
  ⟨by decide, ⟨_, rfl⟩, _, rfl⟩

/-- The last offset of a byte, and the first and the last of a word. -/
theorem test_witness_StagingBufferAccesses :
    (fed 63).buf.wf = true ∧ 63 < 64 ∧ 0 + 4 ≤ 64 ∧ 60 + 4 ≤ 64 := by decide +kernel

theorem test_witness_EqualBuffersAreEqualData :
    (fed 3).buf.wf = true ∧ (Memory.writeBytes [] 0 abc).wf = true ∧
      ∀ a < 64, Memory.read [] a = Memory.read (Memory.write [] 5 0x00) a := by decide

/-- The invariant holds in a state with bytes staged, and in a finalized one; each makes a step. -/
theorem test_witness_StepKeepsInvariant :
    ((sent [0x00, 0x00, 0x00, 0x30]).Inv ∧ ∃ t, step (sent [0x00, 0x00, 0x00, 0x30]) = .next t) ∧ (fed 3).Inv ∧
      finalized.Inv := by
  refine ⟨⟨⟨by decide, by decide, by decide, by decide, by decide, by decide⟩, _, rfl⟩,
    ⟨by decide, by decide, by decide, by decide, by decide, by decide⟩, ?_⟩
  exact ⟨by decide +kernel, by decide +kernel, by decide +kernel, by decide +kernel, by decide +kernel,
    by decide +kernel⟩

/-- Two states that differ, in a byte of `BUF` above `BUFCNT` and in `DIGEST`. -/
theorem test_witness_UnreadBytesAreUnobservable :
    (fed 3).SameButUnread { fed 3 with
      buf := (fed 3).buf.write 3 0x77, digest := Vector.replicate 16 0x55 } ∧
      (fed 3).buf.wf = true ∧ ((fed 3).buf.write 3 0x77).wf = true ∧
      fed 3 ≠ { fed 3 with buf := (fed 3).buf.write 3 0x77, digest := Vector.replicate 16 0x55 } :=
  ⟨⟨rfl, rfl, rfl, rfl, by decide, rfl, fun h => absurd h (by decide), rfl, rfl, rfl, rfl⟩, by decide, by decide,
    by decide⟩

/-- A FEED that fills a block, and a FEED, a FINAL and a HEX in FAULTED and in FINALIZED; a finalize of one block and of
two; the others. -/
theorem test_witness_CommandsTerminateWithinTheirTransforms :
    ((fed 63).buf.wf = true ∧ (fed 63).fault = 0x00 ∧ (fed 63).fin = false) ∧
      (∃ t, exec (.feed 1 [0x61]) (fed 63) = .next t) ∧
      ((faulted 0x01).fault ≠ 0x00 ∧ (∃ t, exec (.feed 0 []) (faulted 0x01) = .next t) ∧
        (∃ t, exec .final (faulted 0x01) = .next t) ∧ ∃ t, exec .hex (faulted 0x01) = .next t) ∧
      (finalized.fin = true ∧ (∃ t, exec (.feed 0 []) finalized = .next t) ∧
        (∃ t, exec .final finalized = .next t) ∧ ∃ t, exec .hex finalized = .next t) ∧
      ((fed 55).buf.wf = true ∧ (fed 55).fault = 0x00 ∧ (fed 55).fin = false) ∧
      (∃ t, exec .final (fed 55) = .next t) ∧
      ((fed 56).buf.wf = true ∧ (fed 56).fault = 0x00 ∧ (fed 56).fin = false) ∧
      (∃ t, exec .hex (fed 56) = .next t) ∧ (∃ t, exec .status (fed 3) = .next t) ∧
      (∃ t, exec .init (fed 3) = .next t) ∧ ∃ t, execIllegal 0x02 (fed 3) = .next t :=
  ⟨by decide +kernel, ⟨_, rfl⟩, ⟨by decide, ⟨_, rfl⟩, ⟨_, rfl⟩, _, rfl⟩, ⟨by decide, ⟨_, rfl⟩, ⟨_, rfl⟩, _, rfl⟩,
    by decide +kernel, ⟨_, rfl⟩, by decide +kernel, ⟨_, rfl⟩, ⟨_, rfl⟩, ⟨_, rfl⟩, _, rfl⟩

theorem test_witness_ResponsesOnlyGrow : ∃ t, step (sent [0x00, 0x00, 0x00, 0x50]) = .next t := ⟨_, rfl⟩

/-- A FEED while ABSORBING, and a FINAL while FINALIZED. -/
theorem test_witness_WellDrivenStepsAreSafe :
    (¬(sent [0x00, 0x00, 0x00, 0x20]).Faulted ∧ (sent [0x00, 0x00, 0x00, 0x20]).WellDriven) ∧
      ¬finalized.Faulted ∧ ({ finalized with cmd := [0x00, 0x00, 0x00, 0x30] } : State).WellDriven :=
  ⟨⟨fun h => h rfl, .feed 0 [], [], rfl, fun h => absurd h (by decide)⟩, fun h => h rfl,
    .final, [], rfl, fun _ _ _ => by simp⟩

/-- Runs that cross a block boundary, with an empty one among them, from a state with bytes staged. -/
theorem test_witness_ChunkingInvariance :
    (fed 3).buf.wf = true ∧ (fed 3).fault = 0x00 ∧ (fed 3).fin = false ∧
      (∀ r ∈ [letters 61, [], letters 65], r.length ≤ 0x0FFFFFFF) ∧
      [letters 61, [], letters 65].flatten.length ≤ 0x0FFFFFFF := by decide +kernel

theorem test_witness_FreshEngineHoldsTheEmptyMessage : (fed 3).fault = 0x00 ∧ finalized.fault = 0x00 := by decide

/-- The engine holds "aaa". -/
theorem test_witness_FeedAppendsToTheMessage :
    (fed 3).Holds (letters 3) ∧ (fed 3).buf.wf = true ∧ (Instr.feed 3 abc).WellFormed :=
  ⟨⟨by decide, by decide, by decide, by decide, by decide, by decide, by decide⟩, by decide, by decide⟩

/-- The engine holds 56 bytes `'a'`, whose digest is in 95_test_vectors L2-P1. -/
theorem test_witness_FinalReturnsTheMd5Digest :
    ((fed 56).Holds (letters 56) ∧ (fed 56).buf.wf = true) ∧
      (md5 (letters 56)).toList =
        [0x3B, 0x0C, 0x8A, 0xC7, 0x03, 0xF8, 0x28, 0xB0, 0x4C, 0x6C, 0x19, 0x70, 0x06, 0xD1, 0x72, 0x18] :=
  ⟨⟨⟨by decide, by decide, by decide +kernel, by decide +kernel, by decide +kernel, by decide +kernel,
    by decide +kernel⟩, by decide +kernel⟩, by decide +kernel⟩

/-- A payload that fits one FEED, and one that does not: one byte more than the most one FEED carries. -/
theorem test_witness_LongFeedsSplitExactly :
    abc ≠ [] ∧ abc.length ≤ 0x0FFFFFFF ∧ 0x0FFFFFFF < (List.replicate (0x0FFFFFFF + 1) (0x61 : Byte)).length :=
  ⟨by decide, by decide, by rw [List.length_replicate]; exact Nat.lt_succ_self _⟩

end Sys2Proof.Tests
end

section
/-! PROOFS. What the state holds and what can be seen of it (10_state): STATUS reports the status word, reset and INIT
give the values of R35, and the bytes that R36 calls unspecified are never observed. -/

namespace Sys2Proof.Machine

/-! ## Reset and INIT (10_state R35) -/

theorem exec_init_clear {s : State} (h : s.fault = 0x00) : exec .init s = .next (startMessage s) :=
  whenNotFaulted_clear startMessage h

/-- Settles O28: the reset column by evaluation, the INIT column from what `startMessage` leaves in each element. -/
theorem resetAndInitValues : Obligations.ResetAndInitValues := by
  refine ⟨rfl, rfl, rfl, rfl, rfl, rfl, fun s t hfault ht => ?_⟩
  rw [exec_init_clear hfault] at ht
  cases ht
  simp [initialAcc]

/-! ## The status word (10_state R30) -/

theorem State.finWord_getLsbD (s : State) (i : Nat) : s.finWord.getLsbD i = (decide (i = 0) && s.fin) := by
  cases h : s.fin <;> simp [State.finWord, h]

/-- The status word bit by bit; above bit 21 the second operand of `&&` reads past the 6 bits of `BUFCNT`. -/
theorem State.statusWord_getLsbD (s : State) (i : Nat) (hi : i < 32) :
    s.statusWord.getLsbD i =
      if i < 8 then s.fault.getLsbD i else if i = 8 then s.fin else decide (16 ≤ i) && s.bufCnt.getLsbD (i - 16) := by
  simp only [State.statusWord, BitVec.getLsbD_or, BitVec.getLsbD_shiftLeft, BitVec.getLsbD_setWidth,
    State.finWord_getLsbD]
  obtain h | rfl | h : i < 8 ∨ i = 8 ∨ 8 < i := by omega
  · simp [h, hi, show i < 16 by omega]
  · simp
  · have hfault : s.fault.getLsbD i = false := BitVec.getLsbD_of_ge _ _ (by omega)
    by_cases h16 : i < 16
    · simp [hfault, h16, show ¬i < 8 by omega, show i ≠ 8 by omega, show ¬16 ≤ i by omega, show i - 8 ≠ 0 by omega]
    · simp [hfault, h16, hi, show ¬i < 8 by omega, show i ≠ 8 by omega, show 16 ≤ i by omega,
        show i - 8 ≠ 0 by omega, show i - 16 < 32 by omega]

/-- The fields of the status word (10_state R30; 41_streaming_hasher R90). -/
theorem State.statusWord_fields (s : State) :
    s.statusWord.extractLsb' 0 8 = s.fault ∧
    s.statusWord.getLsbD 8 = s.fin ∧
    s.statusWord.extractLsb' 9 7 = 0 ∧
    s.statusWord.extractLsb' 16 6 = s.bufCnt ∧
    s.statusWord.extractLsb' 22 10 = 0 := by
  refine ⟨?_, by rw [s.statusWord_getLsbD 8 (by decide)]; simp, ?_, ?_, ?_⟩
  all_goals
    ext i hi
    rw [BitVec.getElem_extractLsb', s.statusWord_getLsbD _ (by omega)]
  · simp [hi]
  · simp [show ¬16 ≤ 9 + i by omega, show ¬9 + i < 8 by omega, show 9 + i ≠ 8 by omega]
  · simp [hi, show ¬16 + i < 8 by omega, show 16 + i ≠ 8 by omega]
  · simp [show ¬22 + i < 8 by omega, show 22 + i ≠ 8 by omega,
      BitVec.getLsbD_of_ge s.bufCnt (22 + i - 16) (by omega)]

/-- What the status word is made of. -/
theorem State.statusWord_congr {s t : State} (hfault : s.fault = t.fault) (hfin : s.fin = t.fin)
    (hcnt : s.bufCnt = t.bufCnt) : s.statusWord = t.statusWord := by
  simp only [State.statusWord, State.finWord, hfault, hfin, hcnt]

@[simp] theorem State.statusWord_emit (s : State) (bs : List Byte) : (s.emit bs).statusWord = s.statusWord :=
  State.statusWord_congr (s.emit_fault bs) (s.emit_fin bs) (s.emit_bufCnt bs)

/-! ## STATUS (41_streaming_hasher R90) -/

/-- Four bytes that spell an illegal header are read off, and nothing else. -/
theorem decode_illegal_header {w : Word} {code : Byte} (rest : List Byte) (h : decodeHeader w = .illegal code) :
    decode (bytesLe32 w ++ rest) = .illegal code rest := by
  change decode (_ :: _ :: _ :: _ :: rest) = _
  rw [decode_cons, le32_bytesLe32, h]

/-- A nonzero ARG beside the OP of STATUS is a ReservedArgument (30_encoding R64). -/
theorem decode_status_reserved {arg : BitVec 28} (rest : List Byte) (harg : arg ≠ 0) :
    decode (bytesLe32 (0x50000000 ||| arg.setWidth 32) ++ rest) = .illegal reservedArgument rest := by
  obtain ⟨hop, hargField⟩ := fields_of_header 5 arg (by decide)
  refine decode_illegal_header rest ((decodeHeader_status hop).trans (if_neg ?_))
  rwa [hargField]

/-- FEED outside FAULTED and FINALIZED absorbs its run. -/
theorem exec_feed_absorbing {s : State} (len : BitVec 28) (p : List Byte) (hfault : s.fault = 0x00)
    (hfin : s.fin = false) : exec (.feed len p) s = .next (absorb p (countAdd len s)) := by
  rw [exec_feed, whenNotFaulted_clear _ hfault, feedRun_absorbing len p hfin]

/-- FINAL outside FAULTED and FINALIZED finalizes and returns the digest. -/
theorem exec_final_absorbing {s : State} (hfault : s.fault = 0x00) (hfin : s.fin = false) :
    exec .final s = .next ((finalize s).emit (finalize s).digest.toList) := by
  rw [exec_final, whenNotFaulted_clear _ hfault, answerDigest_eq, finalizeIfNeeded_absorbing hfin]

/-- A 65-byte run after reset leaves one byte staged: the word is 1 in `BUFCNT`. -/
theorem statusWord_absorb_65 {p : List Byte} (hp : p.length = 65) :
    (absorb p (countAdd 65 State.reset)).statusWord = 0x00010000 := by
  obtain ⟨-, hcnt, -, -⟩ := absorb_spec (s := countAdd 65 State.reset) p rfl
  have hcnt' : (absorb p (countAdd 65 State.reset)).bufCnt = 1 :=
    BitVec.eq_of_toNat_eq (hcnt.trans (by rw [hp]; rfl))
  have hfault : (absorb p (countAdd 65 State.reset)).fault = 0x00 := absorb_fault ..
  have hfin : (absorb p (countAdd 65 State.reset)).fin = false := absorb_fin ..
  rw [State.statusWord, State.finWord, hfault, hfin, hcnt']
  decide

/-- After Finalize outside FAULTED only the `FIN` bit is set. -/
theorem statusWord_finalize {s : State} (hfault : s.fault = 0x00) : (finalize s).statusWord = 0x00000100 := by
  rw [State.statusWord, State.finWord, finalize_fault, finalize_fin, finalize_bufCnt, hfault]
  decide

/-- The worked example of R90: after reset and a FEED of 65 bytes one byte is staged; after a FINAL the message is
finalized and none is. -/
theorem status_after_feed_and_final {p : List Byte} {t u v : State} (hp : p.length = 65)
    (ht : exec (.feed 65 p) State.reset = .next t) (hu : exec .status t = .next u) :
    u.resp = [0x00, 0x00, 0x01, 0x00] ∧
      (exec .final u = .next v → ∃ x, exec .status v = .next x ∧ x.resp = v.resp ++ [0x00, 0x01, 0x00, 0x00]) := by
  rw [exec_feed_absorbing 65 p rfl rfl] at ht
  cases ht
  rw [exec_status, statusWord_absorb_65 hp] at hu
  cases hu
  refine ⟨by rw [State.emit_resp, absorb_resp]; decide, fun hv => ?_⟩
  have hfault : (absorb p (countAdd 65 State.reset)).fault = 0x00 := absorb_fault ..
  rw [exec_final_absorbing (by simpa using hfault) (absorb_fin ..)] at hv
  cases hv
  refine ⟨_, exec_status _, ?_⟩
  rw [State.emit_resp, State.statusWord_emit, statusWord_finalize (by simpa using hfault)]
  rfl

/-- Settles O18: the bits of the status word give its fields, and a header with a nonzero ARG is an illegal one, which
FAULTED discards. -/
theorem statusReportsTheStatusWord : Obligations.StatusReportsTheStatusWord := by
  refine ⟨rfl, exec_status, State.statusWord_fields, fun _ rest harg => decode_status_reserved rest harg, ?_, rfl,
    fun _ _ _ _ hp ht hu => status_after_feed_and_final hp ht hu⟩
  intro s arg rest harg hfault hcmd
  rw [step_illegal (hcmd ▸ decode_status_reserved rest harg)]
  exact execIllegal_faulted _ (by simpa using hfault)

/-! ## Unread bytes: every operation keeps `SameButUnread` (10_state R36) -/

namespace State.SameButUnread

variable {s t : State}

theorem withCmd (h : s.SameButUnread t) (rest : List Byte) : (s.withCmd rest).SameButUnread (t.withCmd rest) :=
  { h with cmd := rfl }

theorem emit (h : s.SameButUnread t) (bs : List Byte) : (s.emit bs).SameButUnread (t.emit bs) :=
  { h with resp := congrArg (· ++ bs) h.resp }

theorem withFault (h : s.SameButUnread t) (code : Byte) :
    { s with fault := code }.SameButUnread { t with fault := code } :=
  { h with fault := rfl }

theorem statusWord (h : s.SameButUnread t) : s.statusWord = t.statusWord :=
  State.statusWord_congr h.fault h.fin h.bufCnt

/-- INIT leaves nothing staged and `FIN = 0`, so no byte of `BUF` or `DIGEST` is read after it. -/
theorem startMessage (h : s.SameButUnread t) : (startMessage s).SameButUnread (startMessage t) :=
  { h with acc := rfl, countLo := rfl, countHi := rfl, bufCnt := rfl, fin := rfl, staged := rfl, digest := nofun }

/-- Reset writes every element and keeps the responses. -/
theorem afterReset (h : s.SameButUnread t) (sent : List Byte) (later : List (List Byte)) :
    (s.afterReset sent later).SameButUnread (t.afterReset sent later) where
  acc := rfl
  countLo := rfl
  countHi := rfl
  bufCnt := rfl
  staged := rfl
  fin := rfl
  digest := nofun
  fault := rfl
  cmd := rfl
  resp := h.resp
  resets := rfl

theorem raiseFault (h : s.SameButUnread t) (code : Byte) : (raiseFault code s).SameButUnread (raiseFault code t) := by
  by_cases hf : s.fault = 0x00
  · rw [raiseFault_clear code s hf, raiseFault_clear code t (h.fault ▸ hf)]
    exact h.withFault code
  · rw [raiseFault_faulted code s hf, raiseFault_faulted code t (h.fault ▸ hf)]
    exact h

theorem countAdd (h : s.SameButUnread t) (len : BitVec 28) : (countAdd len s).SameButUnread (countAdd len t) :=
  { h with countLo := by simp [h.countLo], countHi := by simp [h.countLo, h.countHi] }

/-- Absorb reads the staged bytes and the run alone. -/
theorem absorb (h : s.SameButUnread t) (p : List Byte) (hs : s.buf.wf = true) (ht : t.buf.wf = true) :
    (absorb p s).SameButUnread (absorb p t) := by
  obtain ⟨hsAcc, hsCnt, hsStaged, -⟩ := absorb_spec p hs
  obtain ⟨htAcc, htCnt, htStaged, -⟩ := absorb_spec p ht
  exact {
    acc := by rw [hsAcc, htAcc, h.acc, h.staged]
    countLo := by simp [h.countLo]
    countHi := by simp [h.countHi]
    bufCnt := BitVec.eq_of_toNat_eq (by rw [hsCnt, htCnt, h.bufCnt])
    staged := by rw [hsStaged, htStaged, h.staged]
    fin := by simp [h.fin]
    digest := by simpa using h.digest
    fault := by simp [h.fault]
    cmd := by simp [h.cmd]
    resp := by simp [h.resp]
    resets := by simp [h.resets] }

/-- Finalize reads the staged bytes and the count alone, leaves nothing staged, and writes all of `DIGEST`. -/
theorem finalize (h : s.SameButUnread t) (hs : s.buf.wf = true) (ht : t.buf.wf = true) :
    (finalize s).SameButUnread (finalize t) := by
  obtain ⟨hsAcc, -, -⟩ := finalize_spec hs
  obtain ⟨htAcc, -, -⟩ := finalize_spec ht
  have hacc : (Machine.finalize s).acc = (Machine.finalize t).acc := by
    rw [hsAcc, htAcc, h.acc, h.staged, h.bufCnt, h.countLo, h.countHi]
  exact {
    acc := hacc
    countLo := by simp [h.countLo]
    countHi := by simp [h.countHi]
    bufCnt := by simp
    staged := by simp [State.staged]
    fin := by simp
    digest := by simp [hacc]
    fault := by simp [h.fault]
    cmd := by simp [h.cmd]
    resp := by simp [h.resp]
    resets := by simp [h.resets] }

theorem finalizeIfNeeded (h : s.SameButUnread t) (hs : s.buf.wf = true) (ht : t.buf.wf = true) :
    (finalizeIfNeeded s).SameButUnread (finalizeIfNeeded t) := by
  cases hf : s.fin with
  | true =>
    rw [finalizeIfNeeded_final hf, finalizeIfNeeded_final (h.fin ▸ hf)]
    exact h
  | false =>
    rw [finalizeIfNeeded_absorbing hf, finalizeIfNeeded_absorbing (h.fin ▸ hf)]
    exact h.finalize hs ht

/-- `FIN = 1` after it, so the digests that FINAL and HEX return are the same. -/
theorem finalizeIfNeeded_digest (h : s.SameButUnread t) (hs : s.buf.wf = true) (ht : t.buf.wf = true) :
    (Machine.finalizeIfNeeded s).digest = (Machine.finalizeIfNeeded t).digest :=
  (h.finalizeIfNeeded hs ht).digest (finalizeIfNeeded_fin s)

theorem answerDigest (h : s.SameButUnread t) (hs : s.buf.wf = true) (ht : t.buf.wf = true) :
    (answerDigest s).SameButUnread (answerDigest t) := by
  rw [answerDigest_eq, answerDigest_eq, h.finalizeIfNeeded_digest hs ht]
  exact (h.finalizeIfNeeded hs ht).emit _

theorem answerHex (h : s.SameButUnread t) (hs : s.buf.wf = true) (ht : t.buf.wf = true) :
    (answerHex s).SameButUnread (answerHex t) := by
  rw [answerHex_eq, answerHex_eq, h.finalizeIfNeeded_digest hs ht]
  exact (h.finalizeIfNeeded hs ht).emit _

theorem feedRun (h : s.SameButUnread t) (len : BitVec 28) (p : List Byte) (hs : s.buf.wf = true)
    (ht : t.buf.wf = true) : (feedRun len p s).SameButUnread (feedRun len p t) := by
  cases hf : s.fin with
  | true =>
    rw [feedRun_final len p hf, feedRun_final len p (h.fin ▸ hf)]
    exact h.raiseFault _
  | false =>
    rw [feedRun_absorbing len p hf, feedRun_absorbing len p (h.fin ▸ hf)]
    exact (h.countAdd len).absorb p (by simpa using hs) (by simpa using ht)

/-! ## Unread bytes: a step answers alike -/

/-- The faulted gate goes the same way on both sides. -/
theorem whenNotFaulted {act : State → State} (h : s.SameButUnread t) (hact : (act s).SameButUnread (act t)) :
    SameAnswer (whenNotFaulted s act) (whenNotFaulted t act) := by
  by_cases hf : s.fault = 0x00
  · rw [whenNotFaulted_clear act hf, whenNotFaulted_clear act (h.fault ▸ hf)]
    exact hact
  · rw [whenNotFaulted_faulted act hf, whenNotFaulted_faulted act (h.fault ▸ hf)]
    exact h

theorem exec (h : s.SameButUnread t) (i : Instr) (hs : s.buf.wf = true) (ht : t.buf.wf = true) :
    SameAnswer (exec i s) (exec i t) := by
  cases i with
  | init => exact h.whenNotFaulted h.startMessage
  | feed len p => exact h.whenNotFaulted (h.feedRun len p hs ht)
  | final => exact h.whenNotFaulted (h.answerDigest hs ht)
  | hex => exact h.whenNotFaulted (h.answerHex hs ht)
  | status =>
    rw [exec_status, exec_status, h.statusWord]
    exact h.emit _

theorem holdOrReset (h : s.SameButUnread t) : SameAnswer (holdOrReset s) (holdOrReset t) := by
  unfold Machine.holdOrReset
  rw [← h.resets]
  cases s.resets with
  | nil => rfl
  | cons sent later => exact h.afterReset sent later

end State.SameButUnread

/-- Settles O43, by cases on what stands at the front of the channel, which is the same on both sides. -/
theorem unreadBytesAreUnobservable : Obligations.UnreadBytesAreUnobservable := by
  intro s t hs ht h
  cases hd : decode s.cmd with
  | command i rest =>
    rw [step_command hd, step_command (h.cmd ▸ hd)]
    exact (h.withCmd rest).exec i (by simpa using hs) (by simpa using ht)
  | illegal code rest =>
    rw [step_illegal hd, step_illegal (h.cmd ▸ hd)]
    exact (h.withCmd rest).whenNotFaulted ((h.withCmd rest).raiseFault code)
  | incomplete =>
    rw [step_incomplete hd, step_incomplete (h.cmd ▸ hd)]
    exact h.holdOrReset

end Sys2Proof.Machine
end

section
/-! PROOFS. The encoding of commands (30_encoding): which header values are legal, how many bytes each command takes on
the command channel and answers on the response channel, and the worked encodings of R72. -/

namespace Sys2Proof.Machine

/-! ## Header values (30_encoding R60, R65, R67) -/

/-- A header word is its two fields (30_encoding R60). -/
theorem header_toNat (h : Word) : h.toNat = (opField h).toNat * 2 ^ 28 + (argField h).toNat := by
  rw [opField_toNat, argField_toNat]
  omega

/-- What 30_encoding R65 asks of a header word for it to be read as a given header. -/
def HeaderReadsAs (h : Word) : Header → Prop
  | .init => h = 0x10000000
  | .feed len => h.toNat = 0x20000000 + len.toNat
  | .final => h = 0x30000000
  | .hex => h = 0x40000000
  | .status => h = 0x50000000
  | .illegal code =>
    (code = illegalOpcode ∧ ((opField h).toNat = 0 ∨ 6 ≤ (opField h).toNat)) ∨
    (code = reservedArgument ∧
      ((opField h).toNat = 1 ∨ (opField h).toNat = 3 ∨ (opField h).toNat = 4 ∨ (opField h).toNat = 5) ∧
      argField h ≠ 0)

/-- A header of a command without operands is the command's one word, or a ReservedArgument (30_encoding R64). -/
theorem headerReadsAs_noArgument {h : Word} {c : Header} {op : Nat} (hop : (opField h).toNat = op)
    (hops : op = 1 ∨ op = 3 ∨ op = 4 ∨ op = 5) (hc : HeaderReadsAs (BitVec.ofNat 32 (op * 2 ^ 28)) c) :
    HeaderReadsAs h (if argField h = 0 then c else .illegal reservedArgument) := by
  split_ifs with harg
  · have hw : h = BitVec.ofNat 32 (op * 2 ^ 28) := by
      have hzero : (argField h).toNat = 0 := congrArg BitVec.toNat harg
      refine BitVec.eq_of_toNat_eq ?_
      rw [header_toNat h, hop, hzero, BitVec.toNat_ofNat]
      omega
    rwa [hw]
  · exact .inr ⟨rfl, hop ▸ hops, harg⟩

/-- What the decoder reads from a header is what R65 says, by cases on the OP field. -/
theorem headerReadsAs_decodeHeader (h : Word) : HeaderReadsAs h (decodeHeader h) := by
  obtain hop | hop | hop | hop | hop | hop := opField_cases h
  · rw [decodeHeader_init hop]
    exact headerReadsAs_noArgument hop (by decide) rfl
  · rw [decodeHeader_feed hop]
    exact (header_toNat h).trans (congrArg (· * 2 ^ 28 + (argField h).toNat) hop)
  · rw [decodeHeader_final hop]
    exact headerReadsAs_noArgument hop (by decide) rfl
  · rw [decodeHeader_hex hop]
    exact headerReadsAs_noArgument hop (by decide) rfl
  · rw [decodeHeader_status hop]
    exact headerReadsAs_noArgument hop (by decide) rfl
  · rw [decodeHeader_reserved hop]
    exact .inl ⟨rfl, hop⟩

/-- A nonzero ARG on a command without operands is a ReservedArgument (30_encoding R64). -/
theorem decodeHeader_reservedArgument {h : Word}
    (hop : (opField h).toNat = 1 ∨ (opField h).toNat = 3 ∨ (opField h).toNat = 4 ∨ (opField h).toNat = 5)
    (harg : argField h ≠ 0) : decodeHeader h = .illegal reservedArgument := by
  obtain hop | hop | hop | hop := hop
  · rw [decodeHeader_init hop, if_neg harg]
  · rw [decodeHeader_final hop, if_neg harg]
  · rw [decodeHeader_hex hop, if_neg harg]
  · rw [decodeHeader_status hop, if_neg harg]

/-- A word in the FEED range is a FEED, of its distance from `0x20000000`. -/
theorem decodeHeader_of_feed_toNat {h : Word} {len : BitVec 28} (hw : h.toNat = 0x20000000 + len.toNat) :
    decodeHeader h = .feed len := by
  have hlen := len.isLt
  have harg : argField h = len := BitVec.eq_of_toNat_eq (by rw [argField_toNat]; omega)
  rw [decodeHeader_feed (by rw [opField_toNat]; omega), harg]

/-- The decoder reads a header from exactly the words R65 gives it. -/
theorem decodeHeader_eq_iff {h : Word} {c : Header} : decodeHeader h = c ↔ HeaderReadsAs h c := by
  refine ⟨fun hd => hd ▸ headerReadsAs_decodeHeader h, fun hr => ?_⟩
  cases c with
  | init => exact hr ▸ Laws.Header.init.1
  | feed len => exact decodeHeader_of_feed_toNat hr
  | final => exact hr ▸ Laws.Header.final.1
  | hex => exact hr ▸ Laws.Header.hex.1
  | status => exact hr ▸ Laws.Header.status.1
  | illegal code =>
    obtain ⟨rfl, hop⟩ | ⟨rfl, hop, harg⟩ := hr
    · exact decodeHeader_reserved hop
    · exact decodeHeader_reservedArgument hop harg

/-- The FEED headers are the words from `0x20000000` to `0x2FFFFFFF` (30_encoding R65). -/
theorem decodeHeader_feed_range (h : Word) :
    (∃ len, decodeHeader h = .feed len) ↔ 0x20000000 ≤ h ∧ h ≤ 0x2FFFFFFF := by
  simp only [decodeHeader_eq_iff, HeaderReadsAs, BitVec.le_def, BitVec.reduceToNat]
  constructor
  · rintro ⟨len, hw⟩
    have := len.isLt
    omega
  · intro hw
    exact ⟨BitVec.ofNat 28 (h.toNat - 0x20000000), by rw [BitVec.toNat_ofNat]; omega⟩

theorem argField_ne_zero_iff (h : Word) : argField h ≠ 0 ↔ h.toNat % 2 ^ 28 ≠ 0 := by
  rw [← argField_toNat, BitVec.toNat_ne]
  rfl

/-- Settles O2: each clause is `decodeHeader_eq_iff` at one header, the fields written as quotient and remainder. -/
theorem legalHeadersAreExactlyThese : Obligations.LegalHeadersAreExactlyThese := by
  intro h
  refine ⟨decodeHeader_eq_iff, decodeHeader_feed_range h, fun _ => decodeHeader_eq_iff, decodeHeader_eq_iff,
    decodeHeader_eq_iff, decodeHeader_eq_iff, ?_, ?_, fun code hd => ?_⟩
  · simp [decodeHeader_eq_iff, HeaderReadsAs, illegalOpcode, reservedArgument, opField_toNat]
  · rw [← argField_ne_zero_iff]
    simp [decodeHeader_eq_iff, HeaderReadsAs, illegalOpcode, reservedArgument, opField_toNat]
  · obtain ⟨hcode, -⟩ | ⟨hcode, -⟩ := decodeHeader_eq_iff.1 hd
    · exact .inl hcode
    · exact .inr hcode

/-! ## The bytes of a command (30_encoding R60, R63, R68) -/

/-- What an answer of the decoder says of the bytes it was read from: a header of the command, its payload and the bytes
left over, or an illegal header and the bytes left over. -/
def FetchedFrom (bs : List Byte) : Fetched → Prop
  | .command i rest => ∃ w, decodeHeader w = Laws.Header.expected i ∧ bs = bytesLe32 w ++ (i.payload ++ rest)
  | .illegal code rest => ∃ w, decodeHeader w = .illegal code ∧ bs = bytesLe32 w ++ rest
  | .incomplete => True

/-- The decoder answers from the bytes that stand there, by cases on the header. -/
theorem fetchedFrom_decode (bs : List Byte) : FetchedFrom bs (decode bs) := by
  obtain hs | ⟨h0, h1, h2, h3, p, rfl⟩ := four_bytes_or_short bs
  · rw [decode_short hs]
    trivial
  · have hbytes : h0 :: h1 :: h2 :: h3 :: p = bytesLe32 (le32 h0 h1 h2 h3) ++ p := by rw [bytesLe32_le32]; rfl
    rw [decode_cons, hbytes]
    cases hw : decodeHeader (le32 h0 h1 h2 h3) with
    | feed len =>
      dsimp only
      split_ifs
      · exact ⟨_, hw, by rw [Instr.payload, List.take_append_drop]⟩
      · trivial
    | init | final | hex | status | illegal => exact ⟨_, hw, rfl⟩

theorem decode_command_length {bs rest : List Byte} {i : Instr} (hd : decode bs = .command i rest) :
    bs.length = 4 + i.payload.length + rest.length := by
  obtain ⟨w, -, hbs⟩ : FetchedFrom bs (.command i rest) := hd ▸ fetchedFrom_decode bs
  simp [hbs, Nat.add_assoc]

theorem decode_illegal_length {bs rest : List Byte} {code : Byte} (hd : decode bs = .illegal code rest) :
    bs.length = 4 + rest.length := by
  obtain ⟨w, -, hbs⟩ : FetchedFrom bs (.illegal code rest) := hd ▸ fetchedFrom_decode bs
  simp [hbs]

/-- Settles O4: a command takes its header and its payload, and the payload of a FEED that is read has `LEN` bytes. -/
theorem commandLengths : Obligations.CommandLengths := by
  refine ⟨fun _ _ hd => decode_command_length hd, fun bs rest len p hd => ?_, fun _ _ hd => decode_command_length hd,
    fun _ _ hd => decode_command_length hd, fun _ _ hd => decode_command_length hd,
    fun _ _ _ hd => decode_illegal_length hd⟩
  have hp : p.length = len.toNat := (Instr.wellFormed_feed len p).1 (decode_wellFormed hd)
  rw [← hp]
  exact decode_command_length hd

/-! ## The bytes of a response (30_encoding R69) -/

@[simp] theorem hexDigest_length (d : Vector Byte 16) : (hexDigest d).length = 32 := by
  simp [hexDigest, hexByte]

theorem exec_init_resp {s t : State} (h : exec .init s = .next t) : t.resp = s.resp := by
  obtain ⟨-, rfl⟩ | ⟨-, rfl⟩ := exec_result h
  · rfl
  · simp

theorem exec_feed_resp {s t : State} {len : BitVec 28} {p : List Byte} (h : exec (.feed len p) s = .next t) :
    t.resp = s.resp := by
  obtain ⟨-, rfl⟩ | ⟨-, -, rfl⟩ | ⟨-, -, rfl⟩ := exec_result h
  · rfl
  · simp
  · simp

theorem exec_final_resp {s t : State} (h : exec .final s = .next t) (hfault : s.fault = 0x00) :
    t.resp = s.resp ++ t.digest.toList := by
  obtain ⟨hne, -⟩ | ⟨-, rfl⟩ := exec_result h
  · exact absurd hfault hne
  · simp

theorem exec_hex_resp {s t : State} (h : exec .hex s = .next t) (hfault : s.fault = 0x00) :
    t.resp = s.resp ++ hexDigest t.digest := by
  obtain ⟨hne, -⟩ | ⟨-, rfl⟩ := exec_result h
  · exact absurd hfault hne
  · simp

theorem exec_status_resp {s t : State} (h : exec .status s = .next t) :
    t.resp = s.resp ++ bytesLe32 s.statusWord := by
  obtain rfl := exec_result h
  simp

/-- A command other than STATUS is discarded in FAULTED (60_exceptions R157). -/
theorem exec_faulted {s : State} {i : Instr} (hfault : s.fault ≠ 0x00) (hi : i ≠ .status) : exec i s = .next s := by
  cases i with
  | init | feed | final | hex => exact whenNotFaulted_faulted _ hfault
  | status => exact absurd rfl hi

theorem execIllegal_resp {s t : State} {code : Byte} (h : execIllegal code s = .next t) : t.resp = s.resp := by
  obtain ⟨-, rfl⟩ | ⟨-, rfl⟩ := execIllegal_result h
  · rfl
  · rfl

/-- Settles O19, row by row of R69, from what each command can leave. -/
theorem responseLengths : Obligations.ResponseLengths := by
  refine ⟨fun _ _ => exec_init_resp, fun _ _ _ _ => exec_feed_resp, fun s t h hfault => ?_, fun s t h hfault => ?_,
    fun s t h => ?_, fun s t hfault h => ?_, fun _ _ _ => execIllegal_resp⟩
  · have hresp := exec_final_resp h hfault
    exact ⟨hresp, by simp [hresp]⟩
  · have hresp := exec_hex_resp h hfault
    exact ⟨hresp, by simp [hresp]⟩
  · have hresp := exec_status_resp h
    exact ⟨hresp, by simp [hresp]⟩
  · rw [exec_faulted hfault (by simp), exec_faulted hfault (by simp), or_self] at h
    cases h
    rfl

/-! ## The worked encodings (30_encoding R72) -/

/-- An encoded well-formed command is read back, with nothing of the bytes after it. -/
theorem decode_encode {i : Instr} (rest : List Byte) (hwf : i.WellFormed) :
    decode (encode i ++ rest) = .command i rest := by
  change decode (_ :: _ :: _ :: _ :: (i.payload ++ rest)) = _
  rw [decode_cons, le32_bytesLe32]
  cases i with
  | init => rw [Laws.Header.init.1]; rfl
  | feed len p =>
    have hp : p.length = len.toNat := (Instr.wellFormed_feed len p).1 hwf
    rw [(Laws.Header.feed len p).1]
    simp [Laws.Header.expected, Instr.payload, ← hp]
  | final => rw [Laws.Header.final.1]; rfl
  | hex => rw [Laws.Header.hex.1]; rfl
  | status => rw [Laws.Header.status.1]; rfl

/-- The longest FEED (30_encoding R62): its bytes, and what is read from them. -/
theorem longest_feed_encoding {p : List Byte} (hp : p.length = 0x0FFFFFFF) (rest : List Byte) :
    encode (.feed 0x0FFFFFFF p) = [0xFF, 0xFF, 0xFF, 0x2F] ++ p ∧
      decode ([0xFF, 0xFF, 0xFF, 0x2F] ++ (p ++ rest)) = .command (.feed 0x0FFFFFFF p) rest := by
  have hheader : bytesLe32 (headerWord (.feed 0x0FFFFFFF p)) = [0xFF, 0xFF, 0xFF, 0x2F] := by
    rw [headerWord]
    decide
  have hbytes : encode (.feed 0x0FFFFFFF p) = [0xFF, 0xFF, 0xFF, 0x2F] ++ p := congrArg (· ++ p) hheader
  refine ⟨hbytes, ?_⟩
  rw [← List.append_assoc, ← hbytes]
  exact decode_encode rest ((Instr.wellFormed_feed _ p).2 hp)

/-- Settles O1: the assembler's rows by evaluation, the legal rows by the round trip, and the illegal ones from their
header words. -/
theorem workedEncodingsDecode : Obligations.WorkedEncodingsDecode := by
  refine ⟨by decide, by decide, by decide, by decide, by decide, by decide, by decide, by decide, by decide, by decide,
    fun rest => ⟨decode_encode (i := .init) rest rfl, decode_encode (i := .feed 0 []) rest rfl,
      decode_encode (i := .feed 3 [0x61, 0x62, 0x63]) rest rfl,
      decode_encode (i := .feed 64 (List.replicate 64 0x00)) rest rfl, fun _ hp => longest_feed_encoding hp rest,
      decode_encode (i := .final) rest rfl, decode_encode (i := .hex) rest rfl, decode_encode (i := .status) rest rfl,
      decode_illegal_header (w := 0x00000000) rest (by decide),
      decode_illegal_header (w := 0x30000001) rest (by decide),
      decode_illegal_header (w := 0xF0000000) rest (by decide)⟩⟩

end Sys2Proof.Machine
end

section
/-! PROOFS. The streaming hasher (41_streaming_hasher): INIT starts a message, CountAdd is the 64-bit sum, which
commands fault, what feeding leaves however the bytes are cut into runs, and Finalize's one or two transforms. -/

namespace Sys2Proof.Machine

/-! ## INIT (41_streaming_hasher R81) -/

/-- A nonzero ARG beside the OP of INIT is a ReservedArgument (30_encoding R64). -/
theorem decode_init_reserved {arg : BitVec 28} (rest : List Byte) (harg : arg ≠ 0) :
    decode (bytesLe32 (0x10000000 ||| arg.setWidth 32) ++ rest) = .illegal reservedArgument rest := by
  obtain ⟨hop, hargField⟩ := fields_of_header 1 arg (by decide)
  exact decode_illegal_header rest (decodeHeader_reservedArgument (.inl hop) (hargField.symm ▸ harg))

/-- Just after reset INIT writes the values that stand there. -/
theorem startMessage_reset : startMessage State.reset = State.reset := rfl

/-- After INIT outside FAULTED no bit of the status word is set. -/
theorem statusWord_startMessage {s : State} (hfault : s.fault = 0x00) : (startMessage s).statusWord = 0x00000000 := by
  rw [State.statusWord, State.finWord, startMessage_fault, startMessage_fin, startMessage_bufCnt, hfault]
  decide

/-- Settles O8: INIT is `startMessage` behind the faulted gate, and a nonzero ARG makes its header an illegal one. -/
theorem initStartsMessage : Obligations.InitStartsMessage := by
  refine ⟨rfl, fun s hfault => exec_init_clear hfault, fun s hfault => exec_faulted hfault (by simp),
    fun arg rest harg => decode_init_reserved rest harg, ?_, fun s t u hfault ht hu => ?_⟩
  · rw [exec_init_clear rfl, startMessage_reset]
  · rw [exec_init_clear hfault] at ht
    cases ht
    rw [exec_status_resp hu, statusWord_startMessage hfault, startMessage_resp]
    rfl

/-! ## CountAdd (41_streaming_hasher R83) -/

/-- CountAdd writes the two halves alone, the carry said in numbers. -/
theorem countAdd_eq (len : BitVec 28) (s : State) :
    countAdd len s = { s with
      countLo := s.countLo + lenBits len
      countHi := s.countHi + (if 2 ^ 32 ≤ s.countLo.toNat + 8 * len.toNat then 1 else 0) } := by
  simp only [countAdd, carry_iff]

theorem State.count_lt (s : State) : s.count < 2 ^ 64 := by
  have hlo := s.countLo.isLt
  have hhi := s.countHi.isLt
  unfold State.count
  omega

/-- The count determines its halves. -/
theorem State.count_inj {s t : State} (h : s.count = t.count) : s.countLo = t.countLo ∧ s.countHi = t.countHi := by
  have hs := s.countLo.isLt
  have ht := t.countLo.isLt
  unfold State.count at h
  exact ⟨BitVec.eq_of_toNat_eq (by omega), BitVec.eq_of_toNat_eq (by omega)⟩

theorem countAdd_count (len : BitVec 28) (s : State) :
    (countAdd len s).count = (s.count + 8 * len.toNat) % 2 ^ 64 := by
  have hlo := s.countLo.isLt
  have hhi := s.countHi.isLt
  have hlen := len.isLt
  rw [countAdd_eq, State.count, State.count]
  dsimp only
  rw [BitVec.toNat_add, BitVec.toNat_add, lenBits_toNat]
  split_ifs with hcarry
  · rw [show (1 : Word).toNat = 1 from rfl]
    omega
  · rw [show (0 : Word).toNat = 0 from rfl]
    omega

/-- Settles O9: the carry is 1 exactly where the low half overflows. -/
theorem countAddIsTheSixtyFourBitSum : Obligations.CountAddIsTheSixtyFourBitSum :=
  fun len s => ⟨lenBits_toNat len, countAdd_eq len s, countAdd_count len s⟩

/-! ## Which commands fault (41_streaming_hasher R91) -/

/-- FEED in FINALIZED raises FeedAfterFinal (60_exceptions R154). -/
theorem exec_feed_finalized {s : State} (len : BitVec 28) (p : List Byte) (hfault : s.fault = 0x00)
    (hfin : s.fin = true) : exec (.feed len p) s = .next { s with fault := feedAfterFinal } := by
  rw [exec_feed, whenNotFaulted_clear _ hfault, feedRun_final len p hfin, raiseFault_clear _ s hfault]

/-- Where the engine is not FAULTED, a command that is no FEED in FINALIZED leaves `FAULT` as it was. -/
theorem execResult_fault {i : Instr} {s t : State} (hfault : s.fault = 0x00)
    (hfeed : s.fin = true → ∀ len p, i ≠ .feed len p) (h : execResult i s t) : t.fault = s.fault := by
  cases i with
  | init =>
    obtain ⟨hne, -⟩ | ⟨-, rfl⟩ := h
    · exact absurd hfault hne
    · exact startMessage_fault s
  | feed len p =>
    obtain ⟨hne, -⟩ | ⟨-, hfin, -⟩ | ⟨-, -, rfl⟩ := h
    · exact absurd hfault hne
    · exact absurd rfl (hfeed hfin len p)
    · rw [absorb_fault, countAdd_fault]
  | final | hex =>
    obtain ⟨hne, -⟩ | ⟨-, rfl⟩ := h
    · exact absurd hfault hne
    · rw [State.emit_fault, finalizeIfNeeded_fault]
  | status =>
    obtain rfl := h
    exact State.emit_fault ..

/-- Settles O20, from the one state each command can leave. -/
theorem legalCommandsDoNotFault : Obligations.LegalCommandsDoNotFault := by
  refine fun s i hfault => ⟨fun hfeed => ?_, fun len p hfin hi => ?_⟩
  · obtain ⟨t, ht, hr⟩ := exec_spec i s
    exact ⟨t, ht, (execResult_fault hfault hfeed hr).trans hfault⟩
  · subst hi
    exact ⟨_, exec_feed_finalized len p hfault hfin, by simp [feedAfterFinal]⟩

/-! ## Feeding (41_streaming_hasher R82 to R85) -/

/-- The engine is ABSORBING, with its buffer in canonical form. -/
structure State.ReadyToFeed (s : State) : Prop where
  bufWf : s.buf.wf = true
  notFaulted : s.fault = 0x00
  notFinal : s.fin = false

/-- `t` is what feeding the bytes `m` makes of `s`, however they are cut into runs. -/
structure State.FedBy (s : State) (m : List Byte) (t : State) : Prop where
  ready : t.ReadyToFeed
  accumulated : t.acc = transformAll s.acc (s.staged ++ m)
  stagedTail : t.staged = leftover (s.staged ++ m)
  counted : t.count = (s.count + 8 * m.length) % 2 ^ 64

namespace State.FedBy

variable {s t u : State} {m p : List Byte}

/-- Feeding nothing: fewer than 64 bytes are staged, and the count is below 2^64. -/
theorem refl (h : s.ReadyToFeed) : s.FedBy [] s where
  ready := h
  accumulated := by rw [List.append_nil, transformAll_short _ (by simpa using s.bufCnt_lt)]
  stagedTail := by rw [List.append_nil, leftover_short (by simpa using s.bufCnt_lt)]
  counted := by rw [List.length_nil, Nat.mul_zero, Nat.add_zero, Nat.mod_eq_of_lt s.count_lt]

/-- Feeding `m` and then `p` is feeding `m ++ p`. -/
theorem trans (h : s.FedBy m t) (h' : t.FedBy p u) : s.FedBy (m ++ p) u where
  ready := h'.ready
  accumulated := by
    rw [h'.accumulated, h.accumulated, h.stagedTail, ← List.append_assoc, ← transformAll_extend]
  stagedTail := by rw [h'.stagedTail, h.stagedTail, ← List.append_assoc, ← leftover_extend]
  counted := by
    rw [h'.counted, h.counted, List.length_append]
    omega

/-- `BUFCNT` follows the number of bytes fed, modulo 64 (10_state R26). -/
theorem bufCnt_toNat (h : s.FedBy m t) : t.bufCnt.toNat = (s.bufCnt.toNat + m.length) % 64 := by
  rw [← t.staged_length, h.stagedTail, leftover_length, List.length_append, s.staged_length]

/-- Responses are no part of it. -/
theorem emit (h : s.FedBy m t) (bs : List Byte) : s.FedBy m (t.emit bs) :=
  { h with ready := { h.ready with } }

end State.FedBy

/-- A well-formed FEED feeds its run. -/
theorem exec_feed_fedBy {s : State} {len : BitVec 28} {p : List Byte} (hs : s.ReadyToFeed) (hp : p.length = len.toNat) :
    ∃ t, exec (.feed len p) s = .next t ∧ s.FedBy p t := by
  obtain ⟨hacc, -, hstaged, hwf⟩ := absorb_spec (s := countAdd len s) p (by simpa using hs.bufWf)
  have hst : (countAdd len s).staged = s.staged := by simp [State.staged]
  rw [hst] at hacc hstaged
  refine ⟨_, exec_feed_absorbing len p hs.notFaulted hs.notFinal, ?_⟩
  exact {
    ready := ⟨hwf, by simp [hs.notFaulted], by simp [hs.notFinal]⟩
    accumulated := by rw [hacc, countAdd_acc]
    stagedTail := hstaged
    counted := by rw [hp, ← countAdd_count, State.count, absorb_countLo, absorb_countHi, ← State.count] }

/-- A command that feeds or reports: a well-formed FEED, or STATUS. -/
def FeedsOrReports (i : Instr) : Prop := i.WellFormed ∧ (i = .status ∨ ∃ len p, i = .feed len p)

/-- A command that feeds or reports feeds its payload, which is empty for STATUS. -/
theorem exec_fedBy {s : State} {i : Instr} (hs : s.ReadyToFeed) (hi : FeedsOrReports i) :
    ∃ t, exec i s = .next t ∧ s.FedBy i.payload t := by
  obtain ⟨hwf, rfl | ⟨len, p, rfl⟩⟩ := hi
  · exact ⟨_, exec_status s, (State.FedBy.refl hs).emit _⟩
  · exact exec_feed_fedBy hs ((Instr.wellFormed_feed len p).1 hwf)

/-- Commands that feed or report, one after the other, feed their payloads in order. -/
theorem execAll_fedBy {s : State} {is : List Instr} (hs : s.ReadyToFeed) (his : ∀ i ∈ is, FeedsOrReports i) :
    ∃ t, execAll is s = .next t ∧ s.FedBy (is.flatMap Instr.payload) t := by
  induction is generalizing s with
  | nil => exact ⟨s, rfl, State.FedBy.refl hs⟩
  | cons i is ih =>
    obtain ⟨hi, his⟩ := List.forall_mem_cons.1 his
    obtain ⟨u, hu, hsu⟩ := exec_fedBy hs hi
    obtain ⟨t, ht, hut⟩ := ih hsu.ready his
    refine ⟨t, ?_, hsu.trans hut⟩
    rw [execAll, hu]
    exact ht

/-! ## Chunking (41_streaming_hasher R85) -/

theorem feedOf_feedsOrReports {r : List Byte} (h : r.length ≤ 0x0FFFFFFF) : FeedsOrReports (feedOf r) := by
  refine ⟨(Instr.wellFormed_feed ..).2 ?_, .inr ⟨_, _, rfl⟩⟩
  rw [BitVec.toNat_ofNat, Nat.mod_eq_of_lt (by omega)]

theorem flatMap_payload_feedOf (runs : List (List Byte)) :
    (runs.map feedOf).flatMap Instr.payload = runs.flatten := by
  rw [List.flatMap_map]
  exact List.flatMap_id'

/-- Settles O47: both ways feed the same bytes, and what feeding leaves depends on the bytes alone. -/
theorem chunkingInvariance : Obligations.ChunkingInvariance := by
  intro s runs hwf hfault hfin hruns htotal
  have hs : s.ReadyToFeed := ⟨hwf, hfault, hfin⟩
  have hfeeds : ∀ i ∈ runs.map feedOf, FeedsOrReports i :=
    List.forall_mem_map.2 fun r hr => feedOf_feedsOrReports (hruns r hr)
  obtain ⟨t, ht, hst⟩ := execAll_fedBy hs hfeeds
  obtain ⟨u, hu, hsu⟩ := exec_fedBy hs (feedOf_feedsOrReports htotal)
  rw [flatMap_payload_feedOf] at hst
  obtain ⟨hlo, hhi⟩ := State.count_inj (hst.counted.trans hsu.counted.symm)
  exact ⟨t, u, ht, hu, hst.accumulated.trans hsu.accumulated.symm, hlo, hhi,
    BitVec.eq_of_toNat_eq (hst.bufCnt_toNat.trans hsu.bufCnt_toNat.symm),
    hst.stagedTail.trans hsu.stagedTail.symm, hst.accumulated⟩

/-! ## Finalize's transforms (41_streaming_hasher R87, R88) -/

@[simp] theorem padding_length (n : Nat) (lo hi : Word) : (padding n lo hi).length = 1 + zeroPad n + 8 := by
  simp only [padding, List.length_cons, List.length_append, List.length_replicate, bytesLe32_length]
  omega

/-- Where the length fits beside the staged bytes, one transform, on the one padded block. -/
theorem finalize_one_transform {s : State} (hwf : s.buf.wf = true) (hcnt : s.bufCnt.toNat ≤ 55) :
    (s.staged ++ padding s.bufCnt.toNat s.countLo s.countHi).length = 64 ∧
    (finalize s).acc = blockTransform s.acc (s.staged ++ padding s.bufCnt.toNat s.countLo s.countHi) := by
  have hlen := (padded_length s).trans (if_pos hcnt)
  obtain ⟨hacc, -, -⟩ := finalize_spec hwf
  exact ⟨hlen, hacc.trans (transformAll_block _ hlen)⟩

/-- Where it does not, two transforms, on the padded bytes cut at 64. -/
theorem finalize_two_transforms {s : State} (hwf : s.buf.wf = true) (hcnt : 56 ≤ s.bufCnt.toNat) :
    (s.staged ++ padding s.bufCnt.toNat s.countLo s.countHi).length = 128 ∧
    (finalize s).acc =
      blockTransform
        (blockTransform s.acc ((s.staged ++ padding s.bufCnt.toNat s.countLo s.countHi).take 64))
        ((s.staged ++ padding s.bufCnt.toNat s.countLo s.countHi).drop 64) := by
  have hlen := (padded_length s).trans (if_neg (by omega))
  obtain ⟨hacc, -, -⟩ := finalize_spec hwf
  refine ⟨hlen, ?_⟩
  rw [hacc, transformAll_cons _ (by omega), transformAll_block _ (by rw [List.length_drop, hlen])]

/-- Reset and INIT leave an engine ready to be fed, with nothing staged. -/
theorem readyToFeed_of_fresh {s u : State} (hwf : s.buf.wf = true) (hfault : s.fault = 0x00)
    (h : u = State.reset ∨ exec .init s = .next u) : u.ReadyToFeed ∧ u.bufCnt.toNat = 0 := by
  obtain rfl | h := h
  · exact ⟨⟨rfl, rfl, rfl⟩, rfl⟩
  · rw [exec_init_clear hfault] at h
    cases h
    exact ⟨⟨by simpa using hwf, by simpa using hfault, by simp⟩, by simp⟩

/-- `zeroPad` is the least number of zeros that makes the padded length a multiple of 64. -/
theorem zeroPad_least (n : Nat) :
    (n + 1 + zeroPad n + 8) % 64 = 0 ∧ zeroPad n ≤ 63 ∧ ∀ z, (n + 1 + z + 8) % 64 = 0 → zeroPad n ≤ z := by
  unfold zeroPad
  exact ⟨by omega, by omega, fun z hz => by omega⟩

/-- Settles O14: the padded bytes are one block or two, BUFCNT follows the bytes fed, and the padded length is
arithmetic modulo 64. -/
theorem finalizeRunsOneOrTwoTransforms : Obligations.FinalizeRunsOneOrTwoTransforms := by
  refine ⟨fun s => finalize_one_transform, fun s => finalize_two_transforms, ?_, fun m => ?_, zeroPad_least,
    fun n => ?_⟩
  · intro s u t is hwf hfault hu his ht
    obtain ⟨hready, hzero⟩ := readyToFeed_of_fresh hwf hfault hu
    obtain ⟨v, hv, huv⟩ := execAll_fedBy hready his
    rw [ht] at hv
    cases hv
    rw [huv.bufCnt_toNat, hzero, Nat.zero_add]
  · rw [paddedMessage, List.length_append, padding_length]
    omega
  · unfold zeroPad
    omega

end Sys2Proof.Machine
end

section
/-! PROOFS. The digest formatter (42_digest_formatter): the layout of DIGEST and what writes it, the hex characters, and
the response of HEX. -/

namespace Sys2Proof.Machine

/-! ## The hex characters (42_digest_formatter R101) -/

theorem hexChar_toNat (v : BitVec 4) :
    (hexChar v).toNat = if v.toNat ≤ 9 then 0x30 + v.toNat else 0x61 + (v.toNat - 10) := by
  have hv := v.isLt
  have hle : v ≤ 9 ↔ v.toNat ≤ 9 := BitVec.le_def
  unfold hexChar
  split_ifs with hdigit hnat hnat
  · simp
    omega
  · exact absurd (hle.1 hdigit) hnat
  · exact absurd (hle.2 hnat) hdigit
  · simp
    omega

/-- Settles O38: HexChar by its two ranges; HexByte and HexDigest are their own definitions. -/
theorem hexCharactersAreAscii : Obligations.HexCharactersAreAscii :=
  ⟨hexChar_toNat, fun _ => rfl, fun _ => List.flatMap_def⟩

/-- A hex character is one of `0` to `9` or `a` to `f`. -/
theorem hexChar_range (v : BitVec 4) :
    (0x30 ≤ hexChar v ∧ hexChar v ≤ 0x39) ∨ (0x61 ≤ hexChar v ∧ hexChar v ≤ 0x66) := by
  have hv := v.isLt
  have hchar := hexChar_toNat v
  split_ifs at hchar
  · exact .inl (by bv_omega)
  · exact .inr (by bv_omega)

theorem hexDigest_range {d : Vector Byte 16} {b : Byte} (hb : b ∈ hexDigest d) :
    (0x30 ≤ b ∧ b ≤ 0x39) ∨ (0x61 ≤ b ∧ b ≤ 0x66) := by
  obtain ⟨x, -, hb⟩ := List.mem_flatMap.1 hb
  obtain rfl | rfl : b = hexChar (x.extractLsb' 4 4) ∨ b = hexChar (x.extractLsb' 0 4) := by simpa [hexByte] using hb
  · exact hexChar_range _
  · exact hexChar_range _

/-- Characters `2k` and `2k + 1` of a rendering are the nibbles of byte `k`, the high one first. -/
theorem flatMap_hexByte_getElem? {l : List Byte} {k : Nat} (hk : k < l.length) :
    (l.flatMap hexByte)[2 * k]? = some (hexChar (l[k].extractLsb' 4 4)) ∧
    (l.flatMap hexByte)[2 * k + 1]? = some (hexChar (l[k].extractLsb' 0 4)) := by
  induction l generalizing k with
  | nil => exact absurd hk (Nat.not_lt_zero k)
  | cons b l ih =>
    cases k with
    | zero => exact ⟨rfl, rfl⟩
    | succ k => exact ih (Nat.lt_of_succ_lt_succ hk)

theorem hexDigest_getElem? (d : Vector Byte 16) {k : Nat} (hk : k < 16) :
    (hexDigest d)[2 * k]? = some (hexChar (d[k].extractLsb' 4 4)) ∧
    (hexDigest d)[2 * k + 1]? = some (hexChar (d[k].extractLsb' 0 4)) := by
  rw [← Vector.getElem_toList (by simpa using hk)]
  exact flatMap_hexByte_getElem? (by simpa using hk)

/-! ## The answers of FINAL and HEX (41_streaming_hasher R86; 42_digest_formatter R102) -/

theorem exec_final_clear {s : State} (hfault : s.fault = 0x00) :
    exec .final s = .next ((finalizeIfNeeded s).emit (finalizeIfNeeded s).digest.toList) := by
  rw [exec_final, whenNotFaulted_clear _ hfault, answerDigest_eq]

theorem exec_hex_clear {s : State} (hfault : s.fault = 0x00) :
    exec .hex s = .next ((finalizeIfNeeded s).emit (hexDigest (finalizeIfNeeded s).digest)) := by
  rw [exec_hex, whenNotFaulted_clear _ hfault, answerHex_eq]

/-- Settles O17: FINAL and HEX answer from the one digest of `finalizeIfNeeded s`, the second its rendering. -/
theorem hexResponseIsLowercaseHex : Obligations.HexResponseIsLowercaseHex := fun s hfault =>
  ⟨_, _, hexDigest (finalizeIfNeeded s).digest, (finalizeIfNeeded s).digest, exec_hex_clear hfault,
    exec_final_clear hfault, by simp, by simp, rfl, by simp, by simp, hexDigest_length _, fun _ => hexDigest_range,
    fun _ => hexDigest_getElem? _⟩

/-! ## The digest (42_digest_formatter R100) -/

theorem serialize_getElem (acc : Acc) {i j : Nat} (hi : i < 4) (hj : j < 4) :
    (serialize acc)[4 * i + j] = ([acc.a, acc.b, acc.c, acc.d][i]).extractLsb' (8 * j) 8 := by
  interval_cases i <;> interval_cases j <;> rfl

/-- FINAL and HEX leave `DIGEST` as it was, or they finalize, and it is the serialization of `ACC`. -/
theorem finalizeIfNeeded_digest_cases (s : State) :
    (finalizeIfNeeded s).digest = s.digest ∨
    (s.fin = false ∧ (finalizeIfNeeded s).digest = serialize (finalizeIfNeeded s).acc) := by
  cases hfin : s.fin with
  | true => exact .inl (by rw [finalizeIfNeeded_final hfin])
  | false => exact .inr ⟨rfl, by rw [finalizeIfNeeded_absorbing hfin, finalize_digest]⟩

/-- What a command can do to `DIGEST`: only a FINAL or HEX that finalizes writes it. -/
theorem execResult_digest {i : Instr} {s t : State} (h : execResult i s t) :
    t.digest = s.digest ∨
    ((i = .final ∨ i = .hex) ∧ s.fin = false ∧ t.fin = true ∧ t.digest = serialize t.acc) := by
  cases i with
  | init =>
    obtain ⟨-, rfl⟩ | ⟨-, rfl⟩ := h
    · exact .inl rfl
    · exact .inl (startMessage_digest s)
  | feed len p =>
    obtain ⟨-, rfl⟩ | ⟨-, -, rfl⟩ | ⟨-, -, rfl⟩ := h
    · exact .inl rfl
    · exact .inl (raiseFault_digest ..)
    · exact .inl (by rw [absorb_digest, countAdd_digest])
  | final | hex =>
    obtain ⟨-, rfl⟩ | ⟨-, rfl⟩ := h
    · exact .inl rfl
    · simpa using finalizeIfNeeded_digest_cases s
  | status =>
    obtain rfl := h
    exact .inl (State.emit_digest ..)

/-- Settles O37: the layout byte by byte, the frame from what a command can do to `DIGEST`, the example by evaluation. -/
theorem serializeIsLittleEndian : Obligations.SerializeIsLittleEndian :=
  ⟨fun acc _ _ => serialize_getElem acc, fun _ _ _ h => execResult_digest (exec_result h), by decide⟩

end Sys2Proof.Machine
end

section
/-! PROOFS. The block transform (43_block_transform): the mixing functions, the round tables, the rotation, and the
rotating loop against the named rounds. -/

namespace Sys2Proof.Machine

/-! ## The mixing functions (R122 to R125) -/

theorem mixF_getLsbD (x y z : Word) {i : Nat} (hi : i < 32) :
    (mixF x y z).getLsbD i = if x.getLsbD i then y.getLsbD i else z.getLsbD i := by
  cases hx : x[i] <;> simp [mixF, hx, hi]

/-- G selects by its third argument, since it is F with the arguments turned. -/
theorem mixG_getLsbD (x y z : Word) {i : Nat} (hi : i < 32) :
    (mixG x y z).getLsbD i = if z.getLsbD i then x.getLsbD i else y.getLsbD i :=
  mixF_getLsbD z x y hi

/-- Settles O33: the formulas are the definitions, the selects go bit by bit, the examples by evaluation. -/
theorem mixingFunctions : Obligations.MixingFunctions :=
  ⟨fun _ _ _ => ⟨rfl, rfl, rfl, rfl, rfl⟩, fun x y z _ hi => ⟨mixF_getLsbD x y z hi, mixG_getLsbD x y z hi⟩,
    by decide, by decide, by decide, by decide, by decide⟩

/-! ## The round tables (R128, R129) -/

theorem tableS_closedForm : ∀ i < 64, tableS.getD i 0 =
    ([[7, 12, 17, 22], [5, 9, 14, 20], [4, 11, 16, 23], [6, 10, 15, 21]].getD (i / 16) []).getD (i % 4) 0 := by
  decide

theorem tableS_range : ∀ i < 64, 4 ≤ tableS.getD i 0 ∧ tableS.getD i 0 ≤ 23 := by decide

theorem tableK_closedForm : ∀ i < 64, tableK.getD i 0 =
    if i < 16 then i else if i < 32 then (1 + 5 * i) % 16 else if i < 48 then (5 + 3 * i) % 16 else 7 * i % 16 := by
  decide

/-- Every word index names one of the sixteen words. -/
theorem tableK_lt {i : Nat} (hi : i < 64) : tableK.getD i 0 < 16 := by
  rw [tableK_closedForm i hi]
  split_ifs <;> omega

theorem tableK_pass_count : ∀ q < 4, ∀ j < 16, ((tableK.drop (16 * q)).take 16).count j = 1 := by decide

/-- Settles O34: the tables are finite data, each closed form checked at its 64 entries. -/
theorem tablesInClosedForm : Obligations.TablesInClosedForm :=
  ⟨rfl, rfl, rfl, tableS_closedForm, tableS_range, tableK_closedForm, tableK_pass_count⟩

/-! ## The rotation (R132) -/

theorem rotl32_eq_rotateLeft (x : Word) {s : Nat} (hs : s < 32) : rotl32 x s = x.rotateLeft s := by
  rw [rotl32, BitVec.rotateLeft_def, Nat.mod_eq_of_lt hs]

/-- The bit that moves past the top comes back at the bottom. -/
theorem rotl32_getLsbD (x : Word) {s i : Nat} (hs : s < 32) (hi : i < 32) :
    (rotl32 x s).getLsbD ((i + s) % 32) = x.getLsbD i := by
  rw [rotl32_eq_rotateLeft x hs, BitVec.getLsbD_rotateLeft_of_le hs]
  by_cases htop : i + s < 32
  · simp [Nat.mod_eq_of_lt htop, htop]
  · have hwrap : (i + s) % 32 = i + s - 32 := by omega
    simp [hwrap, show i + s - 32 < s by omega, show 32 - s + (i + s - 32) = i by omega]

theorem rotateLeft_allOnes (w s : Nat) : (BitVec.allOnes w).rotateLeft s = BitVec.allOnes w := by
  ext i hi
  simp

theorem rotl32_allOnes {s : Nat} (hs : s < 32) : rotl32 0xFFFFFFFF s = 0xFFFFFFFF := by
  rw [rotl32_eq_rotateLeft _ hs]
  exact rotateLeft_allOnes 32 s

/-- Settles O35: `rotl32` is the library's rotation below 32, and the amounts are the table's. -/
theorem rotationMovesBitsLeft : Obligations.RotationMovesBitsLeft :=
  ⟨fun x _ _ _ hs hi => rotl32_getLsbD x (by omega) hi, tableS_range, by decide, by decide, by decide,
    fun _ _ hs => rotl32_allOnes (by omega)⟩

/-! ## The rounds in the rotating form (R131) -/

theorem blockWords_getD (blk : List Byte) {j : Nat} (hj : j < 16) : (blockWords blk).getD j 0 = blockWord blk j := by
  simp [blockWords, hj]

/-- The working registers of the rotating loop before round `i`. -/
def rotatingRegs (acc : Acc) (blk : List Byte) (i : Nat) : Acc :=
  (List.range i).foldl (roundStep (blockWords blk)) acc

/-- The working registers of the named table before round `i`. -/
def namedRegs (acc : Acc) (blk : List Byte) (i : Nat) : Acc :=
  (List.range i).foldl (namedRound (blockWords blk)) acc

theorem blockTransform_eq (acc : Acc) (blk : List Byte) :
    blockTransform acc blk = Acc.add acc (rotatingRegs acc blk 64) := rfl

theorem blockTransformNamed_eq (acc : Acc) (blk : List Byte) :
    blockTransformNamed acc blk = Acc.add acc (namedRegs acc blk 64) := rfl

theorem rotatingRegs_succ (acc : Acc) (blk : List Byte) (i : Nat) :
    rotatingRegs acc blk (i + 1) = roundStep (blockWords blk) (rotatingRegs acc blk i) i := by
  simp [rotatingRegs, List.range_succ]

theorem namedRegs_succ (acc : Acc) (blk : List Byte) (i : Nat) :
    namedRegs acc blk (i + 1) = namedRound (blockWords blk) (namedRegs acc blk i) i := by
  simp [namedRegs, List.range_succ]

theorem roundStep_blockWords (blk : List Byte) (w : Acc) {i : Nat} (hi : i < 64) :
    roundStep (blockWords blk) w i =
      ⟨w.d,
       w.b + rotl32 (w.a + mix i w.b w.c w.d + blockWord blk (tableK.getD i 0) + tableT.getD i 0) (tableS.getD i 0),
       w.b, w.c⟩ := by
  rw [roundStep, roundValue, blockWords_getD blk (tableK_lt hi)]

/-! ## The rotating form against the named form (R130, R131) -/

/-- The turn of the register roles that one rotating round makes and the named table does not. -/
def Acc.turn (w : Acc) : Acc := ⟨w.d, w.a, w.b, w.c⟩

theorem Acc.turn_periodic (w : Acc) : Function.IsPeriodicPt Acc.turn 4 w := rfl

/-- One round in both forms: the named round, then one more turn. The cases are the four targets of the table. -/
theorem roundStep_turn (x : List Word) (w : Acc) (i : Nat) :
    roundStep x (Acc.turn^[i] w) i = Acc.turn^[i + 1] (namedRound x w i) := by
  rw [Function.iterate_succ_apply', ← (Acc.turn_periodic w).iterate_mod_apply,
    ← (Acc.turn_periodic (namedRound x w i)).iterate_mod_apply, namedRound]
  have hlt : i % 4 < 4 := Nat.mod_lt _ (by decide)
  generalize i % 4 = r at hlt
  interval_cases r <;> rfl

/-- The simulation: before round `i` the loop's registers are the named ones, turned `i` times. -/
theorem rotatingRegs_eq_turn (acc : Acc) (blk : List Byte) (i : Nat) :
    rotatingRegs acc blk i = Acc.turn^[i] (namedRegs acc blk i) := by
  induction i with
  | zero => rfl
  | succ i ih => rw [rotatingRegs_succ, ih, roundStep_turn, namedRegs_succ]

/-- 64 turns are sixteen full circles, so the two forms end in the same registers. -/
theorem blockTransform_eq_named (acc : Acc) (blk : List Byte) :
    blockTransform acc blk = blockTransformNamed acc blk := by
  rw [blockTransform_eq, blockTransformNamed_eq, rotatingRegs_eq_turn]
  exact congrArg (Acc.add acc) ((Acc.turn_periodic _).const_mul 16)

/-- Settles O36: the registers of the rotating loop are the sequence, the simulation gives the named form, and the
examples run by evaluation. -/
theorem rotatingRoundsEqualNamedRounds : Obligations.RotatingRoundsEqualNamedRounds :=
  ⟨fun acc blk => ⟨rotatingRegs acc blk, rfl,
      fun i hi => (rotatingRegs_succ acc blk i).trans (roundStep_blockWords blk _ hi), blockTransform_eq acc blk⟩,
    blockTransform_eq_named, by decide +kernel, by decide +kernel, by decide +kernel⟩

end Sys2Proof.Machine
end

section
/-! PROOFS. The faults (60_exceptions): what raises each code, that raising one changes nothing else, and what FAULTED
still reads and executes. -/

namespace Sys2Proof.Machine

/-! ## Illegal headers (60_exceptions R152, R153) -/

theorem State.lifecycle_absorbing_iff (s : State) : s.lifecycle = .absorbing ↔ s.fault = 0x00 ∧ s.fin = false := by
  unfold State.lifecycle
  split_ifs with hfault hfin <;> simp_all

/-- Outside FAULTED four bytes that spell an illegal header are read off and their code is raised; nothing else
changes. -/
theorem step_illegal_header {s : State} {h0 h1 h2 h3 code : Byte} {rest : List Byte} (hfault : s.fault = 0x00)
    (hcmd : s.cmd = h0 :: h1 :: h2 :: h3 :: rest) (hheader : decodeHeader (le32 h0 h1 h2 h3) = .illegal code) :
    step s = .next { s with cmd := rest, fault := code } := by
  have hd : decode s.cmd = .illegal code rest := by rw [hcmd, decode_cons, hheader]
  rw [step_illegal hd]
  exact execIllegal_clear code ((s.withCmd_fault rest).trans hfault)

/-- Settles O21: a reserved OP makes an illegal header; the example's OP is 15. -/
theorem reservedOpcodeRaisesIllegalOpcode : Obligations.ReservedOpcodeRaisesIllegalOpcode := by
  refine ⟨fun s h0 h1 h2 h3 rest hfault hcmd hop => ?_, fun s t rest habs hcmd ht => ?_⟩
  · exact step_illegal_header hfault hcmd (decodeHeader_reserved (hop.imp_left (congrArg BitVec.toNat)))
  · obtain ⟨hfault, -⟩ := s.lifecycle_absorbing_iff.1 habs
    rw [step_illegal_header (code := illegalOpcode) hfault hcmd (by decide)] at ht
    cases ht
    rfl

/-- Settles O22: a nonzero ARG beside an OP without operands makes an illegal header, the example's FINAL included. -/
theorem nonzeroArgRaisesReservedArgument : Obligations.NonzeroArgRaisesReservedArgument := by
  refine ⟨fun s h0 h1 h2 h3 rest hfault hcmd hop harg => ?_, fun s t rest habs hcmd ht => ?_⟩
  · have hop' : (opField (le32 h0 h1 h2 h3)).toNat ∈ [1, 3, 4, 5] := List.mem_map_of_mem (f := BitVec.toNat) hop
    exact step_illegal_header hfault hcmd (decodeHeader_reservedArgument (by simpa using hop') harg)
  · obtain ⟨hfault, hfin⟩ := s.lifecycle_absorbing_iff.1 habs
    rw [step_illegal_header (code := reservedArgument) hfault hcmd (by decide)] at ht
    cases ht
    exact ⟨rfl, hfin⟩

/-! ## FEED in FINALIZED (60_exceptions R154) -/

/-- FINAL outside FAULTED leaves the engine in FINALIZED. -/
theorem exec_final_finalized {s t : State} (hfault : s.fault = 0x00) (h : exec .final s = .next t) :
    t.fault = 0x00 ∧ t.fin = true := by
  rw [exec_final_clear hfault] at h
  cases h
  simpa using hfault

/-- Settles O23: the FEED is read back whole from its encoding, and FINAL leads to FINALIZED. -/
theorem feedAfterFinalFaults : Obligations.FeedAfterFinalFaults := by
  refine ⟨fun s len p rest hwf hfault hfin hcmd => ?_, fun s t u hfault ht hu => ?_⟩
  · rw [step_command (hcmd ▸ decode_encode rest hwf)]
    exact exec_feed_finalized len p ((s.withCmd_fault rest).trans hfault) ((s.withCmd_fin rest).trans hfin)
  · obtain ⟨hfault', hfin'⟩ := exec_final_finalized hfault ht
    rw [exec_feed_finalized 1 [0x78] hfault' hfin'] at hu
    cases hu
    exact ⟨rfl, rfl⟩

/-! ## Precise faults (60_exceptions R156) -/

/-- The one way a command changes `FAULT`: it is a FEED in FINALIZED, which writes nothing else. -/
theorem exec_fault_cases {i : Instr} {s t : State} (h : exec i s = .next t) :
    t.fault = s.fault ∨
    (s.fault = 0x00 ∧ s.fin = true ∧ (∃ len p, i = .feed len p) ∧ t = { s with fault := feedAfterFinal }) := by
  by_cases hfault : s.fault = 0x00
  · by_cases hfeed : s.fin = true → ∀ len p, i ≠ .feed len p
    · exact .inl (execResult_fault hfault hfeed (exec_result h))
    · push Not at hfeed
      obtain ⟨hfin, len, p, rfl⟩ := hfeed
      rw [exec_feed_finalized len p hfault hfin] at h
      cases h
      exact .inr ⟨hfault, hfin, ⟨len, p, rfl⟩, rfl⟩
  · by_cases hi : i = .status
    · subst hi
      rw [exec_status] at h
      cases h
      exact .inl (State.emit_fault ..)
    · rw [exec_faulted hfault hi] at h
      cases h
      exact .inl rfl

/-- Settles O25, by what the step read: of the commands only a FEED in FINALIZED changes `FAULT`, an illegal header does
outside FAULTED, and the reset leaves it 0. -/
theorem faultsArePrecise : Obligations.FaultsArePrecise := by
  refine ⟨fun s t h hne hnew => ?_, fun _ _ => rfl⟩
  obtain ⟨i, rest, hd, -, -⟩ | ⟨code, rest, hd, ⟨-, rfl⟩ | ⟨hfault, rfl⟩⟩ | ⟨-, sent, later, -, rfl⟩ := step_cases h
  · rw [step_command hd] at h
    obtain hsame | ⟨hfault, hfin, ⟨len, p, rfl⟩, rfl⟩ := exec_fault_cases h
    · exact absurd (hsame.trans (s.withCmd_fault rest)) hnew
    · exact ⟨(s.withCmd_fault rest).symm.trans hfault, rfl,
        .inr ⟨len, p, hd, (s.withCmd_fin rest).symm.trans hfin, rfl⟩⟩
  · exact absurd (s.withCmd_fault rest) hnew
  · exact ⟨hfault, rfl, .inl ⟨code, hd, rfl⟩⟩
  · exact absurd (s.afterReset_fault sent later) hne

/-! ## FAULTED (60_exceptions R157) -/

@[simp] theorem State.statusWord_withCmd (s : State) (rest : List Byte) : (s.withCmd rest).statusWord = s.statusWord :=
  State.statusWord_congr (s.withCmd_fault rest) (s.withCmd_fin rest) (s.withCmd_bufCnt rest)

/-- Settles O26: the faulted gate discards every command but STATUS and every illegal header. -/
theorem faultedExecutesOnlyStatus : Obligations.FaultedExecutesOnlyStatus := by
  intro s hfault
  have hfault' (rest : List Byte) : (s.withCmd rest).fault ≠ 0x00 := by rwa [s.withCmd_fault rest]
  refine ⟨fun i rest hi hd => ?_, fun code rest hd => ?_, fun rest hd => ?_⟩
  · exact (step_command hd).trans (exec_faulted (hfault' rest) hi)
  · exact (step_illegal hd).trans (execIllegal_faulted code (hfault' rest))
  · rw [step_command hd, exec_status, s.statusWord_withCmd rest]
    rfl

end Sys2Proof.Machine
end

section
/-! PROOFS. The command channel (20_memory, 30_encoding): decoding undoes encoding and encoding undoes decoding, a step
runs the command that stands there, and the engine holds where none does. -/

namespace Sys2Proof.Machine

/-! ## Decoding and encoding (30_encoding R60 to R67) -/

/-- A command is read from no header word but its own. -/
theorem eq_headerWord {w : Word} {i : Instr} (hw : decodeHeader w = Laws.Header.expected i) : w = headerWord i := by
  have hr := decodeHeader_eq_iff.1 hw
  cases i with
  | feed len p =>
    have hown : (headerWord (.feed len p)).toNat = 0x20000000 + len.toNat :=
      decodeHeader_eq_iff.1 (Laws.Header.feed len p).1
    exact BitVec.eq_of_toNat_eq (hr.trans hown.symm)
  | init | final | hex | status => exact hr

/-- What is read as a command is its encoding, followed by the bytes left over. -/
theorem eq_encode_append {bs rest : List Byte} {i : Instr} (hd : decode bs = .command i rest) :
    bs = encode i ++ rest := by
  obtain ⟨w, hw, hbs⟩ : FetchedFrom bs (.command i rest) := hd ▸ fetchedFrom_decode bs
  rw [hbs, eq_headerWord hw, encode, List.append_assoc]

/-- Settles O3: one direction is the round trip, the other that each command has one header word. -/
theorem decodeAndEncodeAgree : Obligations.DecodeAndEncodeAgree :=
  ⟨fun _ rest hwf => decode_encode rest hwf, fun _ _ _ hd => ⟨decode_wellFormed hd, eq_encode_append hd⟩⟩

/-! ## What a step runs (41_streaming_hasher R80; 20_memory R46) -/

/-- Settles O5, by the round trip for a command and by the definition of the step for an illegal header. -/
theorem stepRunsTheCommandRead : Obligations.StepRunsTheCommandRead :=
  ⟨fun _ _ rest hwf hcmd => step_command (hcmd ▸ decode_encode rest hwf), fun _ _ _ hd => step_illegal hd⟩

/-- The bytes of a 32-bit table word: a header and the zero payload it announces (log entry 11). -/
theorem tableBytes_eq (w : Nat) : ∃ h0 h1 h2 h3, tableBytes 32 w =
    h0 :: h1 :: h2 :: h3 :: List.replicate (decodeHeader (le32 h0 h1 h2 h3)).payloadLength 0x00 :=
  ⟨.ofNat 8 w, .ofNat 8 (w / 256), .ofNat 8 (w / 256 / 256), .ofNat 8 (w / 256 / 256 / 256),
    by simp [tableBytes, bytesOfNat, Header.commandLength]⟩

/-- A header and a payload of the length it announces are read to the last byte. -/
theorem decode_announced_rest {h0 h1 h2 h3 : Byte} {p rest : List Byte} {i : Instr}
    (hp : p.length = (decodeHeader (le32 h0 h1 h2 h3)).payloadLength)
    (hd : decode (h0 :: h1 :: h2 :: h3 :: p) = .command i rest) : rest = [] := by
  rw [decode_cons] at hd
  generalize decodeHeader (le32 h0 h1 h2 h3) = c at hd hp
  cases c with
  | feed len =>
    rw [Header.payloadLength] at hp
    dsimp only at hd
    rw [if_pos hp.ge] at hd
    cases hd
    exact List.drop_eq_nil_of_le hp.le
  | init | final | hex | status =>
    cases hd
    exact List.length_eq_zero_iff.1 hp
  | illegal code => cases hd

/-- Settles O6: the word's bytes are the command's whole encoding, which the step reads back. -/
theorem tableWordRunsNext : Obligations.TableWordRunsNext := by
  intro s w i h
  obtain ⟨rest, hd⟩ : ∃ rest, decode (tableBytes 32 w) = .command i rest := by
    rw [decodeTableWord] at h
    split at h
    · next rest hd => exact ⟨rest, by rw [hd, Option.some.inj h]⟩
    · cases h
    · cases h
  obtain ⟨h0, h1, h2, h3, hbytes⟩ := tableBytes_eq w
  obtain rfl : rest = [] := decode_announced_rest (by simp) (hbytes ▸ hd)
  have hcmd : (s.withFetchWord 32 w).cmd = encode i ++ s.cmd := by
    rw [State.withFetchWord, State.withCmd_cmd, eq_encode_append hd, List.append_nil]
  exact step_command (hcmd ▸ decode_encode s.cmd (decode_wellFormed hd))

/-! ## The hold (20_memory R54) -/

theorem decodeHeader_eq_feed_iff {h : Word} : (∃ len, decodeHeader h = .feed len) ↔ opField h = 2 := by
  constructor
  · rintro ⟨len, hw⟩
    have hr : h.toNat = 0x20000000 + len.toNat := decodeHeader_eq_iff.1 hw
    have hlen := len.isLt
    exact BitVec.eq_of_toNat_eq (by rw [opField_toNat, hr, show (2 : BitVec 4).toNat = 2 from rfl]; omega)
  · exact fun hop => ⟨_, decodeHeader_feed (congrArg BitVec.toNat hop)⟩

/-- After four header bytes a command is not whole exactly where a FEED's payload is short. -/
theorem decode_cons_incomplete_iff {h0 h1 h2 h3 : Byte} {p : List Byte} :
    decode (h0 :: h1 :: h2 :: h3 :: p) = .incomplete ↔
      opField (le32 h0 h1 h2 h3) = 2 ∧ p.length < (argField (le32 h0 h1 h2 h3)).toNat := by
  rw [decode_cons]
  by_cases hop : opField (le32 h0 h1 h2 h3) = 2
  · rw [decodeHeader_feed (congrArg BitVec.toNat hop)]
    simp [hop]
  · cases hw : decodeHeader (le32 h0 h1 h2 h3) with
    | feed len => exact absurd (decodeHeader_eq_feed_iff.1 ⟨len, hw⟩) hop
    | init | final | hex | status | illegal => exact iff_of_false nofun fun ⟨h, _⟩ => hop h

theorem decode_incomplete_iff {bs : List Byte} :
    decode bs = .incomplete ↔
      bs.length < 4 ∨
      ∃ h0 h1 h2 h3 p, bs = h0 :: h1 :: h2 :: h3 :: p ∧ opField (le32 h0 h1 h2 h3) = 2 ∧
        p.length < (argField (le32 h0 h1 h2 h3)).toNat := by
  obtain hs | ⟨h0, h1, h2, h3, p, rfl⟩ := four_bytes_or_short bs
  · exact iff_of_true (decode_short hs) (.inl hs)
  · rw [decode_cons_incomplete_iff]
    simp

/-- An illegal header always answers a next state. -/
theorem execIllegal_next (code : Byte) (s : State) : ∃ t, execIllegal code s = .next t := by
  obtain ⟨-, he⟩ | ⟨-, he⟩ := whenNotFaulted_cases s (raiseFault code)
  · exact ⟨_, he⟩
  · exact ⟨_, he⟩

theorem step_held {s : State} (hd : decode s.cmd = .incomplete) (hr : s.resets = []) : step s = .fault .held := by
  rw [step_incomplete hd, holdOrReset, hr]

theorem step_reset {s : State} {sent : List Byte} {later : List (List Byte)} (hd : decode s.cmd = .incomplete)
    (hr : s.resets = sent :: later) : step s = .next (s.afterReset sent later) := by
  rw [step_incomplete hd, holdOrReset, hr]

/-- A step answers a next state, or it holds: there is no whole command, and no reset is to come. -/
theorem step_next_or_held (s : State) :
    (∃ t, step s = .next t) ∨ (step s = .fault .held ∧ decode s.cmd = .incomplete ∧ s.resets = []) := by
  cases hd : decode s.cmd with
  | command i rest =>
    obtain ⟨t, ht, -⟩ := exec_spec i (s.withCmd rest)
    exact .inl ⟨t, (step_command hd).trans ht⟩
  | illegal code rest =>
    obtain ⟨t, ht⟩ := execIllegal_next code (s.withCmd rest)
    exact .inl ⟨t, (step_illegal hd).trans ht⟩
  | incomplete =>
    cases hr : s.resets with
    | nil => exact .inr ⟨step_held hd hr, rfl, rfl⟩
    | cons sent later => exact .inl ⟨_, step_reset hd hr⟩

/-- Settles O7: a step that answers no next state holds, and what is not whole is short of header or of payload. -/
theorem engineHoldsUntilCommandIsWhole : Obligations.EngineHoldsUntilCommandIsWhole := by
  intro s
  rw [← decode_incomplete_iff]
  refine ⟨fun h => ?_, fun ⟨hr, hd⟩ => step_held hd hr⟩
  obtain ⟨t, ht⟩ | ⟨-, hd, hr⟩ := step_next_or_held s
  · rw [ht] at h
    cases h
  · exact ⟨hr, hd⟩

end Sys2Proof.Machine
end

section
/-! PROOFS. The invariant of the engine's state (10_state R23, R26; 41_streaming_hasher R89; 60_exceptions R151): reset
has it, and every operation of a step keeps it. -/

namespace Sys2Proof.Machine

/-! ## The two fields the invariant ties together -/

/-- `COUNT_LO[2:0]` is 0 exactly where the count is a whole number of bytes. -/
theorem State.countLo_aligned_iff (s : State) : s.countLo.extractLsb' 0 3 = 0 ↔ s.count % 8 = 0 := by
  have hfield : (s.countLo.extractLsb' 0 3).toNat = s.count % 8 := by
    rw [BitVec.extractLsb'_toNat, Nat.shiftRight_zero, State.count]
    omega
  rw [← hfield, ← BitVec.toNat_inj]
  rfl

/-- Absorb after CountAdd feeds the run. -/
theorem absorb_fedBy {s : State} {len : BitVec 28} {p : List Byte} (hs : s.ReadyToFeed) (hp : p.length = len.toNat) :
    s.FedBy p (absorb p (countAdd len s)) := by
  obtain ⟨t, ht, hfed⟩ := exec_feed_fedBy hs hp
  rw [exec_feed_absorbing len p hs.notFaulted hs.notFinal] at ht
  cases ht
  exact hfed

/-- An illegal header raises one of the two codes of a header (60_exceptions R151). -/
theorem decode_illegal_code {bs rest : List Byte} {code : Byte} (hd : decode bs = .illegal code rest) :
    code = illegalOpcode ∨ code = reservedArgument := by
  obtain ⟨w, hw, -⟩ : FetchedFrom bs (.illegal code rest) := hd ▸ fetchedFrom_decode bs
  exact (decodeHeader_eq_iff.1 hw).imp And.left And.left

/-! ## Each operation keeps the invariant -/

/-- Settles O41: each clause by evaluation. -/
theorem invariantHoldsAtReset : Obligations.InvariantHoldsAtReset where
  bufWf := rfl
  countAligned := rfl
  countStaged _ := rfl
  finalEmpty := nofun
  finalDigest := nofun
  faultCode := by decide

namespace State.Inv

variable {s t : State}

theorem withCmd (h : s.Inv) (rest : List Byte) : (s.withCmd rest).Inv := { h with }

theorem emit (h : s.Inv) (bs : List Byte) : (s.emit bs).Inv := { h with }

theorem afterReset (s : State) (sent : List Byte) (later : List (List Byte)) : (s.afterReset sent later).Inv :=
  { invariantHoldsAtReset with }

theorem withFault (h : s.Inv) {code : Byte} (hcode : code.toNat ≤ 3) : { s with fault := code }.Inv :=
  { h with faultCode := hcode }

theorem startMessage (h : s.Inv) : (startMessage s).Inv where
  bufWf := h.bufWf
  countAligned := rfl
  countStaged _ := by simp [State.count]
  finalEmpty := nofun
  finalDigest := nofun
  faultCode := h.faultCode

/-- What is fed keeps `BUFCNT` and the count in step, both modulo 64 bytes (10_state R26). -/
theorem fedBy {m : List Byte} (h : s.Inv) (hfin : s.fin = false) (hst : s.FedBy m t) : t.Inv where
  bufWf := hst.ready.bufWf
  countAligned := by
    have haligned := s.countLo_aligned_iff.1 h.countAligned
    rw [State.countLo_aligned_iff, hst.counted]
    omega
  countStaged _ := by
    have haligned := s.countLo_aligned_iff.1 h.countAligned
    rw [hst.bufCnt_toNat, hst.counted, h.countStaged hfin]
    omega
  finalEmpty hf := absurd (hst.ready.notFinal.symm.trans hf) Bool.false_ne_true
  finalDigest hf := absurd (hst.ready.notFinal.symm.trans hf) Bool.false_ne_true
  faultCode := by simp [hst.ready.notFaulted]

theorem finalize (h : s.Inv) : (finalize s).Inv where
  bufWf := (finalize_spec h.bufWf).2.2
  countAligned := by simpa using h.countAligned
  countStaged hf := absurd hf (by simp)
  finalEmpty _ := finalize_bufCnt s
  finalDigest _ := finalize_digest s
  faultCode := by simpa using h.faultCode

theorem finalizeIfNeeded (h : s.Inv) : (finalizeIfNeeded s).Inv := by
  cases hf : s.fin with
  | true => rwa [finalizeIfNeeded_final hf]
  | false =>
    rw [finalizeIfNeeded_absorbing hf]
    exact h.finalize

/-- Every well-formed command keeps the invariant. -/
theorem execResult {i : Instr} (h : s.Inv) (hwf : i.WellFormed) (hr : execResult i s t) : t.Inv := by
  cases i with
  | init =>
    obtain ⟨-, rfl⟩ | ⟨-, rfl⟩ := hr
    · exact h
    · exact h.startMessage
  | feed len p =>
    obtain ⟨-, rfl⟩ | ⟨hfault, -, rfl⟩ | ⟨hfault, hfin, rfl⟩ := hr
    · exact h
    · rw [raiseFault_clear _ s hfault]
      exact h.withFault (by decide)
    · exact h.fedBy hfin (absorb_fedBy ⟨h.bufWf, hfault, hfin⟩ ((Instr.wellFormed_feed len p).1 hwf))
  | final | hex =>
    obtain ⟨-, rfl⟩ | ⟨-, rfl⟩ := hr
    · exact h
    · exact h.finalizeIfNeeded.emit _
  | status =>
    obtain rfl := hr
    exact h.emit _

end State.Inv

/-- Settles O42, by what the step read: a command, an illegal header, or the reset. -/
theorem stepKeepsInvariant : Obligations.StepKeepsInvariant := by
  intro s t h hstep
  obtain ⟨i, rest, -, hwf, hr⟩ | ⟨code, rest, hd, ⟨-, rfl⟩ | ⟨-, rfl⟩⟩ | ⟨-, sent, later, -, rfl⟩ := step_cases hstep
  · exact (h.withCmd rest).execResult hwf hr
  · exact h.withCmd rest
  · obtain rfl | rfl := decode_illegal_code hd
    · exact (h.withCmd rest).withFault (by decide)
    · exact (h.withCmd rest).withFault (by decide)
  · exact State.Inv.afterReset s sent later

end Sys2Proof.Machine
end

section
/-! PROOFS. The staging buffer (20_memory): one-byte and four-byte accesses, and that canonical buffers are compared by
what they read. -/

namespace Sys2Proof.Machine

/-! ## Accesses (20_memory R41) -/

theorem Memory.read_write {m : Memory} (off a : Nat) (v : Byte) (hm : m.wf = true) :
    (m.write off v).read a = if a = off then v else m.read a := by
  split_ifs with h
  · rw [h, Memory.read_write_same v hm]
  · exact Memory.read_write_other m v h

/-- A word is written least significant byte first: each offset is read from the last write to it. -/
theorem Memory.read_write4 {m : Memory} {off : Nat} (a : Nat) (v : Word) (hm : m.wf = true) (hoff : off + 4 ≤ 64) :
    (m.write4 off v).read a =
      if a = off then v.extractLsb' 0 8
      else if a = off + 1 then v.extractLsb' 8 8
      else if a = off + 2 then v.extractLsb' 16 8
      else if a = off + 3 then v.extractLsb' 24 8
      else m.read a := by
  have hbyte (k : Nat) (hk : k < 4) : (m.write4 off v).read (off + k) = (bytesLe32 v)[k] :=
    Memory.read_writeBytes_same (bytesLe32 v) hm hoff hk
  split_ifs with h0 h1 h2 h3
  · rw [h0]; exact hbyte 0 (by decide)
  · rw [h1]; exact hbyte 1 (by decide)
  · rw [h2]; exact hbyte 2 (by decide)
  · rw [h3]; exact hbyte 3 (by decide)
  · exact Memory.read_writeBytes_other m _ (by rw [bytesLe32_length]; omega)

theorem Memory.read4_write4 {m : Memory} {off : Nat} (v : Word) (hm : m.wf = true) (hoff : off + 4 ≤ 64) :
    (m.write4 off v).read4 off = v := by
  simp [Memory.read4, Memory.read_write4 _ v hm hoff, le32_bytesLe32]

/-- Settles O39: each access from the write rules. -/
theorem stagingBufferAccesses : Obligations.StagingBufferAccesses :=
  ⟨fun _ off a v hm hoff => ⟨Memory.write_wf v hm hoff, Memory.read_write off a v hm⟩, fun _ _ => rfl,
    fun _ _ a v hm hoff => ⟨Memory.write4_wf v hm hoff, Memory.read_write4 a v hm hoff⟩,
    fun _ _ v hm hoff => Memory.read4_write4 v hm hoff⟩

/-! ## Equal buffers are equal data -/

/-- The first entry of a buffer in canonical form is seen by reading its offset. -/
theorem Memory.not_read_cons_eq_unlisted {lo a : Nat} {v : Byte} {m : Memory}
    (hm : Memory.wfFrom lo ((a, v) :: m) = true) : Memory.read ((a, v) :: m) a ≠ Memory.unlisted := by
  obtain ⟨-, -, hv, -⟩ := (Memory.wfFrom_cons ..).1 hm
  simpa [Memory.read] using hv

/-- A buffer that reads as another does lists nothing below the other's first entry. -/
theorem Memory.first_le_first {lo a b : Nat} {v w : Byte} {m m' : Memory}
    (hm : Memory.wfFrom lo ((a, v) :: m) = true) (hm' : Memory.wfFrom lo ((b, w) :: m') = true)
    (h : ∀ k < 64, Memory.read ((a, v) :: m) k = Memory.read ((b, w) :: m') k) : b ≤ a := by
  obtain ⟨-, ha, -, -⟩ := (Memory.wfFrom_cons ..).1 hm
  obtain ⟨-, hb⟩ := (Memory.wfFrom_cons ..).1 hm'
  by_contra hlt
  refine Memory.not_read_cons_eq_unlisted hm ((h a ha).trans (Memory.read_below (lo := b) ?_ (by omega)))
  exact (Memory.wfFrom_cons ..).2 ⟨le_refl b, hb⟩

/-- Extensionality of the canonical form, entry by entry from the lowest offset on. -/
theorem Memory.eq_of_read_eq {lo : Nat} {m m' : Memory} (hm : Memory.wfFrom lo m = true)
    (hm' : Memory.wfFrom lo m' = true) (h : ∀ k < 64, m.read k = m'.read k) : m = m' := by
  induction m generalizing lo m' with
  | nil =>
    cases m' with
    | nil => rfl
    | cons e' m' =>
      obtain ⟨-, hb, -⟩ := (Memory.wfFrom_cons ..).1 hm'
      exact absurd (h _ hb).symm (Memory.not_read_cons_eq_unlisted hm')
  | cons e m ih =>
    obtain ⟨a, v⟩ := e
    obtain ⟨-, ha, -, htail⟩ := (Memory.wfFrom_cons ..).1 hm
    cases m' with
    | nil => exact absurd (h _ ha) (Memory.not_read_cons_eq_unlisted hm)
    | cons e' m' =>
      obtain ⟨b, w⟩ := e'
      obtain rfl : a = b :=
        Nat.le_antisymm (Memory.first_le_first hm' hm fun k hk => (h k hk).symm) (Memory.first_le_first hm hm' h)
      obtain ⟨-, -, -, htail'⟩ := (Memory.wfFrom_cons ..).1 hm'
      obtain rfl : v = w := by simpa [Memory.read] using h a ha
      rw [ih htail htail' fun k hk => ?_]
      by_cases hka : k ≤ a
      · rw [Memory.read_below htail (by omega), Memory.read_below htail' (by omega)]
      · simpa [Memory.read, show a ≠ k by omega] using h k hk

/-- Settles O40, by extensionality of the canonical form. -/
theorem equalBuffersAreEqualData : Obligations.EqualBuffersAreEqualData :=
  fun _ _ hm hm' h => Memory.eq_of_read_eq hm hm' h

end Sys2Proof.Machine
end

section
/-! PROOFS. FEED, FINAL and HEX (41_streaming_hasher R82 to R89; 42_digest_formatter R102): what each leaves in every
element, and what it leaves alone. -/

namespace Sys2Proof.Machine

/-! ## FEED (41_streaming_hasher R82 to R84) -/

/-- Settles O10: the elements Absorb writes follow from the bytes fed, the others are in its frame. -/
theorem feedAbsorbsTheRun : Obligations.FeedAbsorbsTheRun := by
  intro s len p hwf hbuf hfault hfin
  have hp : p.length = len.toNat := (Instr.wellFormed_feed len p).1 hwf
  have hfed := absorb_fedBy (len := len) ⟨hbuf, hfault, hfin⟩ hp
  exact ⟨_, exec_feed_absorbing len p hfault hfin, hp ▸ hfed.counted, hfed.accumulated, hfed.bufCnt_toNat,
    hfed.stagedTail, hfed.ready.bufWf, hfed.ready.notFinal, hfed.ready.notFaulted, by simp, by simp, by simp, by simp⟩

theorem countAdd_zero (s : State) : countAdd 0 s = s := by
  have hlo := s.countLo.isLt
  rw [countAdd_eq, if_neg (by simpa using hlo)]
  simp [lenBits]

/-- With nothing to absorb the run fits, or nothing is staged and `BUFCNT` stays 0. -/
theorem absorb_nil (s : State) : absorb [] s = s := by
  have hneed : 0 < s.need := Nat.sub_pos_of_lt s.bufCnt_lt
  unfold absorb
  split_ifs with hstaged hfits
  · simp [stageRun, Memory.writeBytes]
  · exact absurd hneed hfits
  · have hcnt : s.bufCnt = 0#6 := BitVec.eq_of_toNat_eq (Nat.eq_zero_of_not_pos hstaged)
    simp [absorbWhole, absorbBlocks, Memory.writeBytes, ← hcnt]

/-- Settles O11: CountAdd of 0 and Absorb of nothing are the identity; in FINALIZED every FEED faults. -/
theorem emptyFeedChangesNothing : Obligations.EmptyFeedChangesNothing :=
  ⟨fun s hfault hfin => by rw [exec_feed_absorbing 0 [] hfault hfin, countAdd_zero, absorb_nil],
    fun _ hfault hfin => exec_feed_finalized 0 [] hfault hfin⟩

theorem stageRun_read_other {s : State} {p : List Byte} {a : Nat}
    (h : ¬(s.bufCnt.toNat ≤ a ∧ a < s.bufCnt.toNat + p.length)) : (stageRun p s).buf.read a = s.buf.read a := by
  rw [stageRun_buf]
  exact Memory.read_writeBytes_other _ _ (by omega)

/-- The staged block is filled up to offset 63. -/
theorem fillBlock_read_other {s : State} {p : List Byte} {a : Nat} (h : ¬(s.bufCnt.toNat ≤ a ∧ a < 64)) :
    (fillBlock p s).buf.read a = s.buf.read a := by
  have hcnt := s.bufCnt_lt
  have htake : (p.take s.need).length ≤ 64 - s.bufCnt.toNat := List.length_take_le ..
  rw [fillBlock_buf]
  exact Memory.read_writeBytes_other _ _ (by omega)

theorem absorbWhole_read_other {s : State} {p : List Byte} {a : Nat} (h : ¬a < p.length % 64) :
    (absorbWhole p s).buf.read a = s.buf.read a := by
  rw [absorbWhole_buf]
  exact Memory.read_writeBytes_other _ _ (by rw [leftover_length]; omega)

/-- `a` is none of the offsets Absorb stores to (41_streaming_hasher R84): those the run takes where it fits, those it
fills and then its tail's where it does not, its tail's where nothing is staged. -/
def AbsorbLeaves (s : State) (p : List Byte) (a : Nat) : Prop :=
  if 0 < s.bufCnt.toNat then
    if p.length < s.need then ¬(s.bufCnt.toNat ≤ a ∧ a < s.bufCnt.toNat + p.length)
    else ¬(s.bufCnt.toNat ≤ a ∧ a < 64) ∧ ¬a < (p.length - s.need) % 64
  else ¬a < p.length % 64

theorem absorb_read_other {s : State} {p : List Byte} {a : Nat} (h : AbsorbLeaves s p a) :
    (absorb p s).buf.read a = s.buf.read a := by
  unfold AbsorbLeaves at h
  unfold absorb
  split_ifs at h ⊢
  · exact stageRun_read_other h
  · obtain ⟨hfill, htail⟩ := h
    rw [absorbWhole_read_other (by rwa [List.length_drop]), fillBlock_read_other hfill]
  · exact absorbWhole_read_other h

/-- Settles O12, by what FEED finds: FAULTED, FINALIZED or ABSORBING. -/
theorem feedFrame : Obligations.FeedFrame := by
  intro s t len p h
  obtain ⟨hfault, rfl⟩ | ⟨hfault, hfin, rfl⟩ | ⟨hfault, hfin, rfl⟩ := exec_result h
  · exact ⟨rfl, rfl, rfl, rfl, rfl, fun _ => rfl, fun _ => rfl, fun hzero => absurd hzero hfault⟩
  · rw [raiseFault_clear _ s hfault]
    exact ⟨rfl, rfl, rfl, rfl, rfl, fun hf => absurd (hf.symm.trans hfin) Bool.false_ne_true, fun _ => rfl,
      fun _ hf => absurd (hf.symm.trans hfin) Bool.false_ne_true⟩
  · refine ⟨by simp, by simp, by simp, by simp, by simp, fun _ => by simp, fun hne => ?_, fun _ _ a ha => ?_⟩
    · exact absurd hne (by simp [hfault, hfin])
    · exact (absorb_read_other (s := countAdd len s) ha).trans (by rw [countAdd_buf])

/-! ## FINAL and HEX (41_streaming_hasher R86 to R89; 42_digest_formatter R102) -/

theorem exec_final_of_final {s : State} (hfault : s.fault = 0x00) (hfin : s.fin = true) :
    exec .final s = .next (s.emit s.digest.toList) := by
  rw [exec_final_clear hfault, finalizeIfNeeded_final hfin]

theorem exec_hex_of_final {s : State} (hfault : s.fault = 0x00) (hfin : s.fin = true) :
    exec .hex s = .next (s.emit (hexDigest s.digest)) := by
  rw [exec_hex_clear hfault, finalizeIfNeeded_final hfin]

/-- Outside FAULTED FINAL and HEX leave the finalized state but for the response. -/
theorem exec_final_or_hex {s t : State} (hfault : s.fault = 0x00)
    (h : exec .final s = .next t ∨ exec .hex s = .next t) : ∃ bs, t = (finalizeIfNeeded s).emit bs := by
  rw [exec_final_clear hfault, exec_hex_clear hfault] at h
  obtain h | h := h
  · cases h
    exact ⟨_, rfl⟩
  · cases h
    exact ⟨_, rfl⟩

/-- Settles O13: FINALIZED and FAULTED by the gates of FINAL, ABSORBING by what Finalize leaves. -/
theorem finalFinalizesAndReturnsDigest : Obligations.FinalFinalizesAndReturnsDigest := by
  refine ⟨fun s hfault hfin => exec_final_of_final hfault hfin, fun s hwf hfault hfin => ?_,
    fun s hfault => exec_faulted hfault (by simp)⟩
  obtain ⟨hacc, hbytes, hbufWf⟩ := finalize_spec hwf
  exact ⟨_, exec_final_absorbing hfault hfin, by simpa using hacc, by simp, by simp, by simp, by simp, by simp, by simp,
    by simpa using hbytes, by simpa using hbufWf, by simpa using hfault, by simp, by simp⟩

/-- Settles O15: after either command the engine is in FINALIZED, where both answer from the digest it holds. -/
theorem finalAndHexAreIdempotent : Obligations.FinalAndHexAreIdempotent := by
  intro s t hfault h
  obtain ⟨bs, rfl⟩ := exec_final_or_hex hfault h
  exact ⟨exec_final_of_final (by simpa using hfault) (by simp), exec_hex_of_final (by simpa using hfault) (by simp)⟩

/-- A response is the last thing written: two states made of one by emitting differ in it alone. -/
theorem State.emit_eq_emit_with_resp (s : State) (bs bs' : List Byte) :
    s.emit bs = { s.emit bs' with resp := s.resp ++ bs } := rfl

/-- Settles O16: both answer from `finalizeIfNeeded s`; in FAULTED the gate discards HEX. -/
theorem hexFinalizesLikeFinal : Obligations.HexFinalizesLikeFinal := by
  refine ⟨fun s hfault => ⟨_, _, exec_hex_clear hfault, exec_final_clear hfault, by simp, ?_⟩,
    fun s hfault => exec_faulted hfault (by simp)⟩
  rw [State.emit_digest, ← finalizeIfNeeded_resp s]
  exact State.emit_eq_emit_with_resp ..

end Sys2Proof.Machine
end

section
/-! PROOFS. Faults, reset and the lifecycle (60_exceptions R155, R158; 70_reset_and_hazards; 10_state R34): which fault
a command raises, what clears it, and what a reset to come leaves to the command before it. -/

namespace Sys2Proof.Machine

/-! ## The order of the faults (60_exceptions R155) -/

/-- The header word that stands at the front of a stream is the one its first four bytes assemble to. -/
theorem le32_eq_of_cons_eq {h0 h1 h2 h3 : Byte} {p q : List Byte} {w : Word}
    (h : h0 :: h1 :: h2 :: h3 :: p = bytesLe32 w ++ q) : le32 h0 h1 h2 h3 = w := by
  cases h
  exact le32_bytesLe32 w

/-- The fields of a header that is read as a command: FEED's OP, or another command's OP and no ARG. -/
theorem fields_of_command {w : Word} {i : Instr} (hw : decodeHeader w = Laws.Header.expected i) :
    (opField w = 2 ∧ ∃ len p, i = .feed len p) ∨
    (opField w ∈ [1, 3, 4, 5] ∧ argField w = 0 ∧ ∀ len p, i ≠ .feed len p) := by
  cases i with
  | feed len p => exact .inl ⟨decodeHeader_eq_feed_iff.1 ⟨len, hw⟩, len, p, rfl⟩
  | init | final | hex | status =>
    obtain rfl := eq_headerWord hw
    exact .inr ⟨by decide, by decide, nofun⟩

/-- What a whole command leaves in `FAULT` where the engine was not FAULTED, in the order of 60_exceptions R155. -/
def faultRaised (w : Word) (fin : Bool) : Byte :=
  if opField w = 0 ∨ 6 ≤ (opField w).toNat then 0x01
  else if opField w ≠ 2 ∧ argField w ≠ 0 then 0x02
  else if opField w = 2 ∧ fin = true then 0x03
  else 0x00

theorem faultRaised_illegal {w : Word} {code : Byte} (fin : Bool) (hw : decodeHeader w = .illegal code) :
    faultRaised w fin = code := by
  obtain ⟨rfl, hop⟩ | ⟨rfl, hop, harg⟩ := decodeHeader_eq_iff.1 hw
  · exact if_pos (hop.imp_left fun hzero => BitVec.eq_of_toNat_eq hzero)
  · have hne (k : BitVec 4) (hk : k.toNat = 0 ∨ k.toNat = 2) : opField w ≠ k := by rintro rfl; omega
    rw [faultRaised, if_neg (not_or.2 ⟨hne 0 (.inl rfl), by omega⟩), if_pos ⟨hne 2 (.inr rfl), harg⟩]
    rfl

theorem faultRaised_feed {w : Word} (fin : Bool) (hop : opField w = 2) :
    faultRaised w fin = if fin then 0x03 else 0x00 := by
  simp [faultRaised, hop]

theorem faultRaised_noArgument {w : Word} (fin : Bool) (hop : opField w ∈ [1, 3, 4, 5]) (harg : argField w = 0) :
    faultRaised w fin = 0x00 := by
  simp only [List.mem_cons, List.not_mem_nil, or_false] at hop
  obtain h | h | h | h := hop <;> simp [faultRaised, h, harg]

/-- A command that is read leaves in `FAULT` what its header says. -/
theorem exec_faultRaised {s t : State} {i : Instr} {w : Word} (hfault : s.fault = 0x00)
    (hw : decodeHeader w = Laws.Header.expected i) (h : exec i s = .next t) : t.fault = faultRaised w s.fin := by
  obtain ⟨hop, len, p, rfl⟩ | ⟨hop, harg, hi⟩ := fields_of_command hw
  · rw [faultRaised_feed _ hop]
    cases hfin : s.fin with
    | true =>
      rw [exec_feed_finalized len p hfault hfin] at h
      cases h
      rfl
    | false =>
      rw [exec_feed_absorbing len p hfault hfin] at h
      cases h
      simpa using hfault
  · rw [faultRaised_noArgument _ hop harg, ← hfault]
    exact execResult_fault hfault (fun _ => hi) (exec_result h)

/-- Settles O24, by what stands on the channel: a command, or an illegal header. -/
theorem faultPriority : Obligations.FaultPriority := by
  refine ⟨fun s t h0 h1 h2 h3 p hfault hcmd hwhole h => ?_,
    fun rest => decode_illegal_header (w := 0x60000001) rest (by decide)⟩
  change t.fault = faultRaised (le32 h0 h1 h2 h3) s.fin
  have hfrom := fetchedFrom_decode s.cmd
  cases hd : decode s.cmd with
  | command i rest =>
    rw [hd] at hfrom
    obtain ⟨w, hw, hbytes⟩ := hfrom
    rw [le32_eq_of_cons_eq (hcmd ▸ hbytes), ← s.withCmd_fin rest]
    exact exec_faultRaised (by simpa using hfault) hw (step_command hd ▸ h)
  | illegal code rest =>
    rw [hd] at hfrom
    obtain ⟨w, hw, hbytes⟩ := hfrom
    rw [le32_eq_of_cons_eq (hcmd ▸ hbytes), faultRaised_illegal _ hw]
    rw [step_illegal hd, execIllegal_clear code (by simpa using hfault)] at h
    cases h
    rfl
  | incomplete => exact absurd hd hwhole

/-! ## Reset (60_exceptions R158; 70_reset_and_hazards R170 to R172) -/

/-- Settles O27: no command and no illegal header changes a code once it is there. -/
theorem onlyResetClearsFault : Obligations.OnlyResetClearsFault := by
  intro s t hfault h
  obtain ⟨i, rest, hd, -, -⟩ | ⟨code, rest, -, ⟨-, rfl⟩ | ⟨hzero, -⟩⟩ | ⟨-, sent, later, hr, rfl⟩ := step_cases h
  · rw [step_command hd] at h
    obtain hsame | ⟨hzero, -⟩ := exec_fault_cases h
    · exact .inl (hsame.trans (s.withCmd_fault rest))
    · exact absurd ((s.withCmd_fault rest).symm.trans hzero) hfault
  · exact .inl (s.withCmd_fault rest)
  · exact absurd ((s.withCmd_fault rest).symm.trans hzero) hfault
  · exact .inr ⟨rfl, sent, later, hr, rfl⟩

/-- Settles O29: the next state is the reset state, with the channels and the resets left. -/
theorem resetEndsTheHold : Obligations.ResetEndsTheHold := fun _ _ _ hd hr =>
  ⟨_, step_reset hd hr, rfl, rfl, rfl, rfl, rfl, rfl, rfl, rfl, rfl, rfl⟩

theorem exec_init_fault {s t : State} (h : exec .init s = .next t) : t.fault = s.fault := by
  obtain ⟨-, rfl⟩ | ⟨-, rfl⟩ := exec_result h
  · rfl
  · exact startMessage_fault s

/-- Settles O30: INIT by its faulted gate and `startMessage`, reset by the two ways a hold goes on. -/
theorem resetAndInitAgreeOnTheHashingState : Obligations.ResetAndInitAgreeOnTheHashingState := by
  refine ⟨fun s t sent later hfault h => ?_, fun _ _ => exec_init_fault, fun _ hfault => exec_faulted hfault (by simp),
    fun _ _ _ hd hr => ⟨step_reset hd hr, rfl, rfl⟩, fun _ hd hr => step_held hd hr⟩
  rw [exec_init_clear hfault] at h
  cases h
  exact ⟨rfl, rfl, rfl, rfl, rfl⟩

/-! ## A reset to come waits for the command (70_reset_and_hazards R171) -/

/-- The state with other resets to come. -/
def State.withResets (s : State) (later : List (List Byte)) : State := { s with resets := later }

theorem startMessage_withResets (s : State) (later : List (List Byte)) :
    startMessage (s.withResets later) = (startMessage s).withResets later := rfl

theorem raiseFault_withResets (code : Byte) (s : State) (later : List (List Byte)) :
    raiseFault code (s.withResets later) = (raiseFault code s).withResets later := by
  unfold raiseFault
  rw [apply_ite (State.withResets · later)]
  rfl

theorem absorb_withResets (p : List Byte) (s : State) (later : List (List Byte)) :
    absorb p (s.withResets later) = (absorb p s).withResets later := by
  unfold absorb
  rw [apply_ite (State.withResets · later), apply_ite (State.withResets · later)]
  rfl

theorem feedRun_withResets (len : BitVec 28) (p : List Byte) (s : State) (later : List (List Byte)) :
    feedRun len p (s.withResets later) = (feedRun len p s).withResets later := by
  cases hfin : s.fin with
  | true => rw [feedRun_final len p hfin, feedRun_final len p (by exact hfin), raiseFault_withResets]
  | false =>
    rw [feedRun_absorbing len p hfin, feedRun_absorbing len p (by exact hfin), ← absorb_withResets]
    rfl

theorem padBlock_withResets (s : State) (later : List (List Byte)) :
    padBlock (s.withResets later) = (padBlock s).withResets later := by
  unfold padBlock
  rw [apply_ite (State.withResets · later)]
  rfl

theorem finalize_withResets (s : State) (later : List (List Byte)) :
    finalize (s.withResets later) = (finalize s).withResets later := by
  simp only [finalize, padBlock_withResets]
  rfl

theorem finalizeIfNeeded_withResets (s : State) (later : List (List Byte)) :
    finalizeIfNeeded (s.withResets later) = (finalizeIfNeeded s).withResets later := by
  unfold finalizeIfNeeded
  rw [apply_ite (State.withResets · later), finalize_withResets]
  rfl

theorem emit_withResets (s : State) (bs : List Byte) (later : List (List Byte)) :
    (s.withResets later).emit bs = (s.emit bs).withResets later := rfl

theorem answerDigest_withResets (s : State) (later : List (List Byte)) :
    answerDigest (s.withResets later) = (answerDigest s).withResets later := by
  rw [answerDigest_eq, answerDigest_eq, finalizeIfNeeded_withResets, ← emit_withResets]
  rfl

theorem answerHex_withResets (s : State) (later : List (List Byte)) :
    answerHex (s.withResets later) = (answerHex s).withResets later := by
  rw [answerHex_eq, answerHex_eq, finalizeIfNeeded_withResets, ← emit_withResets]
  rfl

/-- The faulted gate passes the resets to come through where what it gates does. -/
theorem whenNotFaulted_withResets {s t : State} {act : State → State} {later : List (List Byte)}
    (hact : act (s.withResets later) = (act s).withResets later) (h : whenNotFaulted s act = .next t) :
    whenNotFaulted (s.withResets later) act = .next (t.withResets later) := by
  obtain ⟨hfault, he⟩ | ⟨hfault, he⟩ := whenNotFaulted_cases s act
  · rw [he] at h
    cases h
    rw [whenNotFaulted_clear act (by exact hfault), hact]
  · rw [he] at h
    cases h
    exact whenNotFaulted_faulted act hfault

theorem exec_withResets {i : Instr} {s t : State} (later : List (List Byte)) (h : exec i s = .next t) :
    exec i (s.withResets later) = .next (t.withResets later) := by
  cases i with
  | init => exact whenNotFaulted_withResets (startMessage_withResets s later) h
  | feed len p => exact whenNotFaulted_withResets (feedRun_withResets len p s later) h
  | final => exact whenNotFaulted_withResets (answerDigest_withResets s later) h
  | hex => exact whenNotFaulted_withResets (answerHex_withResets s later) h
  | status =>
    rw [exec_status] at h
    cases h
    rfl

/-- Where no reset takes effect, the step is the same whatever resets are to come. -/
theorem step_withResets {s t : State} (later : List (List Byte)) (hwhole : decode s.cmd ≠ .incomplete)
    (h : step s = .next t) : step (s.withResets later) = .next (t.withResets later) := by
  cases hd : decode s.cmd with
  | command i rest =>
    rw [step_command hd] at h
    exact (step_command (s := s.withResets later) hd).trans (exec_withResets later h)
  | illegal code rest =>
    rw [step_illegal hd] at h
    exact (step_illegal (s := s.withResets later) hd).trans
      (whenNotFaulted_withResets (raiseFault_withResets code _ later) h)
  | incomplete => exact absurd hd hwhole

/-- Settles O31: with the resets that are to come anyway in their place, the next state has those too. -/
theorem resetWaitsForTheCommand : Obligations.ResetWaitsForTheCommand := by
  intro s t hwhole h
  refine ⟨?_, fun later => step_withResets later hwhole h⟩
  have hown : step s = .next (t.withResets s.resets) := step_withResets s.resets hwhole h
  rw [h] at hown
  have ht : t = t.withResets s.resets := Host.Outcome.next.inj hown
  rw [ht]
  rfl

/-! ## The lifecycle (10_state R34) -/

theorem State.lifecycle_finalized_iff (s : State) : s.lifecycle = .finalized ↔ s.fault = 0x00 ∧ s.fin = true := by
  unfold State.lifecycle
  split_ifs with hfault hfin <;> simp_all

theorem State.lifecycle_faulted_iff (s : State) : s.lifecycle = .faulted ↔ s.fault ≠ 0x00 := by
  unfold State.lifecycle
  split_ifs with hfault hfin <;> simp_all

theorem State.lifecycle_congr {s t : State} (hfault : s.fault = t.fault) (hfin : s.fin = t.fin) :
    s.lifecycle = t.lifecycle := by
  rw [State.lifecycle, State.lifecycle, hfault, hfin]

theorem exec_init_lifecycle {s t : State} (hfault : s.fault = 0x00) (h : exec .init s = .next t) :
    t.lifecycle = .absorbing := by
  rw [exec_init_clear hfault] at h
  cases h
  exact (State.lifecycle_absorbing_iff _).2 ⟨hfault, rfl⟩

theorem exec_final_or_hex_lifecycle {s t : State} (hfault : s.fault = 0x00)
    (h : exec .final s = .next t ∨ exec .hex s = .next t) : t.lifecycle = .finalized := by
  obtain ⟨bs, rfl⟩ := exec_final_or_hex hfault h
  exact (State.lifecycle_finalized_iff _).2 ⟨by simpa using hfault, by simp⟩

theorem exec_status_lifecycle {s t : State} (h : exec .status s = .next t) : t.lifecycle = s.lifecycle := by
  obtain rfl := exec_result h
  exact State.lifecycle_congr (s.emit_fault _) (s.emit_fin _)

theorem exec_feed_absorbing_lifecycle {s t : State} {len : BitVec 28} {p : List Byte} (hfault : s.fault = 0x00)
    (hfin : s.fin = false) (h : exec (.feed len p) s = .next t) : t.lifecycle = .absorbing := by
  rw [exec_feed_absorbing len p hfault hfin] at h
  cases h
  exact (State.lifecycle_absorbing_iff _).2 ⟨by simpa using hfault, by simpa using hfin⟩

theorem exec_feed_finalized_lifecycle {s t : State} {len : BitVec 28} {p : List Byte} (hfault : s.fault = 0x00)
    (hfin : s.fin = true) (h : exec (.feed len p) s = .next t) : t.lifecycle = .faulted := by
  rw [exec_feed_finalized len p hfault hfin] at h
  cases h
  exact (State.lifecycle_faulted_iff _).2 (show feedAfterFinal ≠ 0x00 by decide)

/-- No command leaves FAULTED. -/
theorem exec_faulted_lifecycle {s t : State} {i : Instr} (hfault : s.fault ≠ 0x00) (h : exec i s = .next t) :
    t.lifecycle = .faulted := by
  obtain hsame | ⟨hzero, -⟩ := exec_fault_cases h
  · exact (State.lifecycle_faulted_iff _).2 (hsame ▸ hfault)
  · exact absurd hzero hfault

/-- Settles O32, command by command. -/
theorem lifecycleMoves : Obligations.LifecycleMoves := by
  refine fun s t i h => ⟨fun hs => ?_, fun hs => ?_, fun hs => ⟨?_, ?_, ?_⟩⟩
  · exact exec_faulted_lifecycle (s.lifecycle_faulted_iff.1 hs) h
  · obtain ⟨hfault, hfin⟩ := s.lifecycle_absorbing_iff.1 hs
    cases i with
    | init => exact exec_init_lifecycle hfault h
    | feed len p => exact exec_feed_absorbing_lifecycle hfault hfin h
    | final => exact exec_final_or_hex_lifecycle hfault (.inl h)
    | hex => exact exec_final_or_hex_lifecycle hfault (.inr h)
    | status => exact (exec_status_lifecycle h).trans hs
  all_goals obtain ⟨hfault, hfin⟩ := s.lifecycle_finalized_iff.1 hs
  · rintro rfl
    exact exec_init_lifecycle hfault h
  · rintro len p rfl
    exact exec_feed_finalized_lifecycle hfault hfin h
  · rintro (rfl | rfl | rfl)
    · exact exec_final_or_hex_lifecycle hfault (.inl h)
    · exact exec_final_or_hex_lifecycle hfault (.inr h)
    · exact (exec_status_lifecycle h).trans hs

end Sys2Proof.Machine
end

section
/-! PROOFS. Rules of the whole machine (70_reset_and_hazards R175, R176; 20_memory R43): every command ends after a
bounded number of transforms, responses only grow, and a well-driven engine neither holds nor faults. -/

namespace Sys2Proof.Machine

/-! ## Transforms (70_reset_and_hazards R176) -/

/-- An executed FEED transforms the whole blocks of the staged bytes followed by its run. -/
theorem exec_feed_transforms {s t : State} {len : BitVec 28} {p : List Byte} (hwf : s.buf.wf = true)
    (hfault : s.fault = 0x00) (hfin : s.fin = false) (h : exec (.feed len p) s = .next t) :
    t.acc = transformAll s.acc (s.staged ++ p) := by
  rw [exec_feed_absorbing len p hfault hfin] at h
  cases h
  obtain ⟨hacc, -⟩ := absorb_spec (s := countAdd len s) p (by simpa using hwf)
  simpa [State.staged] using hacc

/-- A FINAL or HEX that finalizes transforms the blocks of the staged bytes followed by their padding. -/
theorem exec_final_or_hex_transforms {s t : State} (hwf : s.buf.wf = true) (hfault : s.fault = 0x00)
    (hfin : s.fin = false) (h : exec .final s = .next t ∨ exec .hex s = .next t) :
    t.acc = transformAll s.acc (s.staged ++ padding s.bufCnt.toNat s.countLo s.countHi) := by
  obtain ⟨bs, rfl⟩ := exec_final_or_hex hfault h
  rw [State.emit_acc, finalizeIfNeeded_absorbing hfin]
  exact (finalize_spec hwf).1

theorem padded_blocks_le_two (s : State) :
    (wholeBlocks (s.staged ++ padding s.bufCnt.toNat s.countLo s.countHi)).length ≤ 2 := by
  rw [wholeBlocks_length, padded_length]
  split_ifs <;> decide

/-- In FAULTED and in FINALIZED neither FINAL nor HEX transforms anything. -/
theorem exec_final_or_hex_acc {s t : State} (h : exec .final s = .next t ∨ exec .hex s = .next t)
    (hs : s.fault ≠ 0x00 ∨ s.fin = true) : t.acc = s.acc := by
  by_cases hfault : s.fault = 0x00
  · obtain ⟨bs, rfl⟩ := exec_final_or_hex hfault h
    rw [State.emit_acc, finalizeIfNeeded_final (hs.resolve_left (not_not_intro hfault))]
  · rw [exec_faulted hfault (by simp), exec_faulted hfault (by simp), or_self] at h
    cases h
    rfl

theorem exec_init_acc {s t : State} (h : exec .init s = .next t) :
    t.acc = if s.fault = 0x00 then initialAcc else s.acc := by
  obtain ⟨hfault, rfl⟩ | ⟨hfault, rfl⟩ := exec_result h
  · rw [if_neg hfault]
  · rw [if_pos hfault, startMessage_acc]

theorem execIllegal_acc {s t : State} {code : Byte} (h : execIllegal code s = .next t) : t.acc = s.acc := by
  obtain ⟨-, rfl⟩ | ⟨-, rfl⟩ := execIllegal_result h
  · rfl
  · rfl

/-- Settles O44, command by command; a FEED that does not absorb leaves `ACC` by its frame. -/
theorem commandsTerminateWithinTheirTransforms : Obligations.CommandsTerminateWithinTheirTransforms := by
  refine ⟨fun i s => ?_, fun s t len p hwf hfault hfin h => ⟨exec_feed_transforms hwf hfault hfin h, ?_, ?_⟩,
    fun s t len p h hs => ?_,
    fun s t hwf hfault hfin h =>
      ⟨exec_final_or_hex_transforms hwf hfault hfin h, padded_blocks_le_two s, fun _ => length_of_mem_wholeBlocks⟩,
    fun _ _ => exec_final_or_hex_acc, fun s t h => ?_, fun _ _ => exec_init_acc, fun _ _ _ => execIllegal_acc,
    step_next_or_held⟩
  · obtain ⟨t, ht, -⟩ := exec_spec i s
    exact ⟨t, ht⟩
  · rw [wholeBlocks_length, List.length_append, s.staged_length]
  · exact fun _ => length_of_mem_wholeBlocks
  · obtain ⟨-, -, -, -, -, -, hframe, -⟩ := feedFrame s t len p h
    rw [hframe hs]
  · obtain rfl := exec_result h
    exact s.emit_acc _

/-! ## Responses (20_memory R43) -/

/-- Every command appends to the response channel, nothing or its response. -/
theorem execResult_resp {i : Instr} {s t : State} (h : execResult i s t) : ∃ r, t.resp = s.resp ++ r := by
  cases i with
  | init =>
    obtain ⟨-, rfl⟩ | ⟨-, rfl⟩ := h
    · exact ⟨[], by simp⟩
    · exact ⟨[], by simp⟩
  | feed len p =>
    obtain ⟨-, rfl⟩ | ⟨-, -, rfl⟩ | ⟨-, -, rfl⟩ := h
    · exact ⟨[], by simp⟩
    · exact ⟨[], by simp⟩
    · exact ⟨[], by simp⟩
  | final | hex =>
    obtain ⟨-, rfl⟩ | ⟨-, rfl⟩ := h
    · exact ⟨[], by simp⟩
    · exact ⟨_, by rw [State.emit_resp, finalizeIfNeeded_resp]⟩
  | status =>
    obtain rfl := h
    exact ⟨_, s.emit_resp _⟩

/-- Settles O45: a command appends, an illegal header and the reset leave the responses as they were. -/
theorem responsesOnlyGrow : Obligations.ResponsesOnlyGrow := by
  intro s t h
  obtain ⟨i, rest, -, -, hr⟩ | ⟨code, rest, -, ⟨-, rfl⟩ | ⟨-, rfl⟩⟩ | ⟨-, sent, later, -, rfl⟩ := step_cases h
  · simpa using execResult_resp hr
  · exact ⟨[], by simp⟩
  · exact ⟨[], by simp⟩
  · exact ⟨[], by simp⟩

/-! ## A well-driven engine (70_reset_and_hazards R175) -/

/-- Settles O46: the command that stands there completes without a fault (O20). -/
theorem wellDrivenStepsAreSafe : Obligations.WellDrivenStepsAreSafe := by
  rintro s hs ⟨i, rest, hd, hfeed⟩
  have hfault : (s.withCmd rest).fault = 0x00 := (s.withCmd_fault rest).trans (not_not.1 hs)
  obtain ⟨t, ht, hzero⟩ := (legalCommandsDoNotFault (s.withCmd rest) i hfault).1 (by simpa using hfeed)
  exact ⟨t, (step_command hd).trans ht, not_not_intro hzero⟩

end Sys2Proof.Machine
end

section
/-! PROOFS. Whole messages (00_scope R1, R2; 41_streaming_hasher R85 to R88): the engine holds the message it was fed,
and FINAL and HEX answer from its MD5 digest; and the runs a long FEED is cut into (30_encoding R71). -/

namespace Sys2Proof.Machine

/-! ## The message the engine holds -/

/-- The count is the length in bits modulo 2^64 exactly where its halves are those of the padding. -/
theorem State.count_eq_iff (s : State) (n : Nat) :
    s.count = 8 * n % 2 ^ 64 ↔ s.countLo = bitCountLo n ∧ s.countHi = bitCountHi n := by
  have hlo := s.countLo.isLt
  have hhi := s.countHi.isLt
  simp only [← BitVec.toNat_inj, bitCountLo, bitCountHi, BitVec.toNat_ofNat, State.count]
  omega

/-- To hold a message is to have been fed it after reset. -/
theorem State.holds_iff_fedBy_reset {s : State} {m : List Byte} :
    s.Holds m ∧ s.buf.wf = true ↔ State.reset.FedBy m s := by
  have hlen : (State.reset.count + 8 * m.length) % 2 ^ 64 = 8 * m.length % 2 ^ 64 :=
    congrArg (· % 2 ^ 64) (Nat.zero_add _)
  constructor
  · rintro ⟨h, hwf⟩
    exact {
      ready := ⟨hwf, h.notFaulted, h.notFinal⟩
      accumulated := h.accumulated
      stagedTail := h.stagedTail
      counted := ((s.count_eq_iff _).2 ⟨h.countedLo, h.countedHi⟩).trans hlen.symm }
  · intro h
    obtain ⟨hlo, hhi⟩ := (s.count_eq_iff _).1 (h.counted.trans hlen)
    exact ⟨{
      notFaulted := h.ready.notFaulted
      notFinal := h.ready.notFinal
      accumulated := h.accumulated
      countedLo := hlo
      countedHi := hhi
      counted := h.bufCnt_toNat.trans (congrArg (· % 64) (Nat.zero_add _))
      stagedTail := h.stagedTail }, h.ready.bufWf⟩

theorem startMessage_holds {s : State} (hfault : s.fault = 0x00) : (startMessage s).Holds [] where
  notFaulted := hfault
  notFinal := rfl
  accumulated := rfl
  countedLo := rfl
  countedHi := rfl
  counted := rfl
  stagedTail := rfl

/-- Settles O48: just after reset the engine is as INIT would leave it. -/
theorem freshEngineHoldsTheEmptyMessage : Obligations.FreshEngineHoldsTheEmptyMessage :=
  ⟨startMessage_reset ▸ startMessage_holds rfl, fun _ hfault => ⟨_, exec_init_clear hfault, startMessage_holds hfault⟩⟩

/-- Settles O49: feeding the message and then the run is feeding the two joined. -/
theorem feedAppendsToTheMessage : Obligations.FeedAppendsToTheMessage := by
  intro s m len p h hwf hfeed
  have hheld := State.holds_iff_fedBy_reset.1 ⟨h, hwf⟩
  obtain ⟨t, ht, hfed⟩ := exec_feed_fedBy hheld.ready ((Instr.wellFormed_feed len p).1 hfeed)
  exact ⟨t, ht, State.holds_iff_fedBy_reset.2 (hheld.trans hfed)⟩

/-! ## The MD5 digest (00_scope R1, R2) -/

/-- The padding depends on the length modulo the block size. -/
theorem padding_mod (n : Nat) (lo hi : Word) : padding (n % 64) lo hi = padding n lo hi := by
  simp [padding, zeroPad]

/-- Finalize runs the transform over the padded message: its whole blocks are done, its leftover is staged. -/
theorem State.Holds.finalize_digest {s : State} {m : List Byte} (h : s.Holds m) (hwf : s.buf.wf = true) :
    (finalize s).digest = md5 m := by
  obtain ⟨hacc, -, -⟩ := finalize_spec hwf
  rw [Machine.finalize_digest, hacc, h.accumulated, h.stagedTail, h.counted, h.countedLo, h.countedHi, padding_mod,
    ← transformAll_extend]
  rfl

/-- Settles O50: FINAL and HEX finalize the message held; the source's two digests by evaluation. -/
theorem finalReturnsTheMd5Digest : Obligations.FinalReturnsTheMd5Digest := by
  refine ⟨fun s m h hwf => ?_, by decide +kernel, by decide +kernel⟩
  have hdigest : (finalizeIfNeeded s).digest = md5 m := by
    rw [finalizeIfNeeded_absorbing h.notFinal, h.finalize_digest hwf]
  exact ⟨⟨_, exec_final_clear h.notFaulted, by simpa using hdigest, by simp [hdigest]⟩,
    ⟨_, exec_hex_clear h.notFaulted, by simpa using hdigest, by simp [hdigest]⟩⟩

/-! ## Long runs (30_encoding R71) -/

theorem cutRun_short {p : List Byte} (n : Nat) (h : p.length ≤ Config.maxRun) : cutRun n p = [p] := by
  cases n with
  | zero => rfl
  | succ n => exact if_neg (not_lt.2 h)

theorem cutRun_long {p : List Byte} (n : Nat) (h : Config.maxRun < p.length) :
    cutRun (n + 1) p = p.take Config.maxRun :: cutRun n (p.drop Config.maxRun) := if_pos h

theorem cutRun_ne_nil (n : Nat) (p : List Byte) : cutRun n p ≠ [] := by
  cases n with
  | zero => exact List.cons_ne_nil _ _
  | succ n =>
    unfold cutRun
    split_ifs
    · exact List.cons_ne_nil _ _
    · exact List.cons_ne_nil _ _

/-- Induction over the cuts: a payload that fits is one run, a longer one a full run and the runs of what is left. The
bound is on the cuts that `cutRun` may still make. -/
theorem cutRun_induction {motive : List Byte → List (List Byte) → Prop}
    (fits : ∀ p, p.length ≤ Config.maxRun → motive p [p])
    (cut : ∀ p rs, Config.maxRun < p.length → rs ≠ [] → motive (p.drop Config.maxRun) rs →
      motive p (p.take Config.maxRun :: rs))
    {n : Nat} {p : List Byte} (h : p.length ≤ Config.maxRun * (n + 1)) : motive p (cutRun n p) := by
  induction n generalizing p with
  | zero => exact fits p (by omega)
  | succ n ih =>
    by_cases hp : p.length ≤ Config.maxRun
    · rw [cutRun_short _ hp]
      exact fits p hp
    · rw [cutRun_long n (not_le.1 hp)]
      rw [Nat.mul_add_one] at h
      exact cut p _ (not_le.1 hp) (cutRun_ne_nil _ _) (ih (by rw [List.length_drop]; omega))

theorem runsOf_induction {motive : List Byte → List (List Byte) → Prop}
    (fits : ∀ p, p.length ≤ Config.maxRun → motive p [p])
    (cut : ∀ p rs, Config.maxRun < p.length → rs ≠ [] → motive (p.drop Config.maxRun) rs →
      motive p (p.take Config.maxRun :: rs)) (p : List Byte) : motive p (runsOf p) :=
  cutRun_induction fits cut (Nat.lt_mul_div_succ _ (by decide)).le

theorem runsOf_flatten (p : List Byte) : (runsOf p).flatten = p := by
  refine runsOf_induction (motive := fun p rs => rs.flatten = p) ?_ ?_ p
  · exact fun p _ => List.flatten_singleton
  · intro p rs _ _ ih
    rw [List.flatten_cons, ih, List.take_append_drop]

theorem length_le_of_mem_runsOf (p : List Byte) : ∀ r ∈ runsOf p, r.length ≤ Config.maxRun := by
  refine runsOf_induction (motive := fun _ rs => ∀ r ∈ rs, r.length ≤ Config.maxRun) ?_ ?_ p
  · exact fun p hp => List.forall_mem_singleton.2 hp
  · exact fun p rs _ _ ih => List.forall_mem_cons.2 ⟨List.length_take_le .., ih⟩

theorem length_of_mem_dropLast_runsOf (p : List Byte) : ∀ r ∈ (runsOf p).dropLast, r.length = Config.maxRun := by
  refine runsOf_induction (motive := fun _ rs => ∀ r ∈ rs.dropLast, r.length = Config.maxRun) ?_ ?_ p
  · exact fun p _ => nofun
  · intro p rs hp hrs ih
    rw [List.dropLast_cons_of_ne_nil hrs]
    exact List.forall_mem_cons.2 ⟨List.length_take_of_le hp.le, ih⟩

/-- A run is cut off only where bytes are left over. -/
theorem ne_nil_of_mem_runsOf (p : List Byte) : p ≠ [] → ∀ r ∈ runsOf p, r ≠ [] := by
  refine runsOf_induction (motive := fun p rs => p ≠ [] → ∀ r ∈ rs, r ≠ []) ?_ ?_ p
  · exact fun p _ hne => List.forall_mem_singleton.2 hne
  · intro p rs hp _ ih _
    have hfull : 0 < (p.take Config.maxRun).length := by rw [List.length_take_of_le hp.le]; decide
    have hleft : 0 < (p.drop Config.maxRun).length := by rw [List.length_drop]; omega
    exact List.forall_mem_cons.2 ⟨List.ne_nil_of_length_pos hfull, ih (List.ne_nil_of_length_pos hleft)⟩

/-- Settles O51, each clause by induction over the cuts. -/
theorem longFeedsSplitExactly : Obligations.LongFeedsSplitExactly := fun p =>
  ⟨runsOf_flatten p,
    fun r hr => ⟨length_le_of_mem_runsOf p r hr, (feedOf_feedsOrReports (length_le_of_mem_runsOf p r hr)).1⟩,
    length_of_mem_dropLast_runsOf p, ne_nil_of_mem_runsOf p, cutRun_short _⟩

end Sys2Proof.Machine
end
